-- ==== Sys2Proof/Word.lean ====
section
/-! DEFINITION. The word types of TSS-CORE (spec/00_scope.md R7; spec/30_encoding.md R30, R31). -/

namespace Sys2Proof

/-- A `Byte`: 8 bits, unsigned; also a field element, bit `i` being the coefficient of `t^i`
(spec/00_scope.md section 5; spec/20_memory.md R20). -/
abbrev Byte := BitVec 8

/-- A command word: 24 bits, `OPC ++ A ++ B` (spec/30_encoding.md R30). -/
abbrev CommandWord := BitVec 24

/-- A response word: 16 bits, `STAT ++ VAL` (spec/30_encoding.md R31). -/
abbrev ResponseWord := BitVec 16

/-- A 9-bit polynomial over GF(2), the type of `POLY` (spec/00_scope.md R5). -/
abbrev Poly9 := BitVec 9

/-- A 15-bit polynomial over GF(2), the type of a carry-less product (spec/40_field_alu.md R42). -/
abbrev Poly15 := BitVec 15

end Sys2Proof
end

