-- ==== Sys2Proof/Syntax.lean ====
section
/-! DEFINITION. The ten commands (spec/30_encoding.md R33), their mnemonics, and the fields of format C (R30). -/

namespace Sys2Proof

/-- One constructor per row of spec/opcode_table.json. A must-be-zero field (R35) is no operand, so it has no
argument here; every operand is a `Byte` (R32). -/
inductive Instr where
  /-- `GF.ADD a, b` (R54). -/
  | gfAdd (a b : Byte)
  /-- `GF.MUL a, b` (R55). -/
  | gfMul (a b : Byte)
  /-- `GF.INV a` (R56). -/
  | gfInv (a : Byte)
  /-- `GF.DIV a, b`: `a` the dividend, `b` the divisor (R57). -/
  | gfDiv (a b : Byte)
  /-- `PE.CLR` (R62). -/
  | peClr
  /-- `PE.PUSH c`: the next coefficient (R63). -/
  | pePush (c : Byte)
  /-- `PE.EVAL x`: the evaluation point (R64). -/
  | peEval (x : Byte)
  /-- `IP.CLR` (R69). -/
  | ipClr
  /-- `IP.PUSH x, y`: a share's index and its byte (R70). -/
  | ipPush (x y : Byte)
  /-- `IP.INTERP` (R71). -/
  | ipInterp
  deriving DecidableEq, Repr

/-- The mnemonics of the opcode map (R33). -/
inductive Mnemonic where
  | gfAdd | gfMul | gfInv | gfDiv | peClr | pePush | peEval | ipClr | ipPush | ipInterp
  deriving DecidableEq, Repr

/-- The three fields of format C (R30): `OPC = w[23:16]`, `A = w[15:8]`, `B = w[7:0]`. -/
structure Fields where
  opc : Byte
  a : Byte
  b : Byte
  deriving DecidableEq, Repr

/-- Why a command word is illegal: which clause of R35 it falls under. -/
inductive IllegalWord where
  /-- R35 (a): the opcode byte is not assigned. -/
  | unassignedOpcode (opc : Byte)
  /-- R35 (b), (c): the opcode is assigned, but a field that must be `0x00` is not. -/
  | unusedFieldNonzero (opc a b : Byte)
  deriving DecidableEq, Repr

end Sys2Proof
end

