-- ==== Sys2Proof/WellFormed.lean ====
section
/-! DEFINITION. Which command words are legal, written from the prose of spec/30_encoding.md R35 (independently of
the match and mask table of R33, which `decode` uses). A term of `Instr` needs no check: every operand is a `Byte`
and a must-be-zero field is no argument, so the checks stand on the three fields of the raw word. -/

namespace Sys2Proof

/-- The ten assigned opcode bytes (R35 (a)). -/
def assignedOpcodes : List Byte := [0x01, 0x02, 0x03, 0x04, 0x10, 0x11, 0x12, 0x20, 0x21, 0x22]

/-- The opcodes whose `B` field must be `0x00` (R35 (b), (c)). -/
def opcodesWithoutB : List Byte := [0x03, 0x10, 0x11, 0x12, 0x20, 0x22]

/-- The opcodes whose `A` field must be `0x00` (R35 (c)). -/
def opcodesWithoutA : List Byte := [0x10, 0x20, 0x22]

/-- First check: the opcode is assigned (R35 (a)). -/
def Fields.opcodeAssigned (f : Fields) : Bool := assignedOpcodes.contains f.opc

/-- Second check: an unused `B` is `0x00` (R35 (b), (c)). -/
def Fields.unusedBZero (f : Fields) : Bool := !opcodesWithoutB.contains f.opc || f.b == 0

/-- Third check: an unused `A` is `0x00` (R35 (c)). -/
def Fields.unusedAZero (f : Fields) : Bool := !opcodesWithoutA.contains f.opc || f.a == 0

/-- The word with these fields is legal (R35). -/
def Fields.wellFormed (f : Fields) : Bool := f.opcodeAssigned && f.unusedBZero && f.unusedAZero

end Sys2Proof
end

