-- ==== Sys2Proof/Decode.lean ====
section
/-! DEFINITION. Decoding a 24-bit command word by the opcode map's match and mask (spec/30_encoding.md R30, R32,
R33, R34, R35), the encoder, and the byte order in which a test bench writes a word (spec/20_memory.md R20). -/

namespace Sys2Proof

/-- `OPC = w[23:16]` (R30). -/
def wordOpc (w : CommandWord) : Byte := w.extractLsb' 16 8

/-- `A = w[15:8]` (R30). -/
def wordA (w : CommandWord) : Byte := w.extractLsb' 8 8

/-- `B = w[7:0]` (R30). -/
def wordB (w : CommandWord) : Byte := w.extractLsb' 0 8

/-- The three fields of a word (R30). -/
def wordFields (w : CommandWord) : Fields := ⟨wordOpc w, wordA w, wordB w⟩

/-- `OPC ++ A ++ B` (R30). -/
def packWord (opc a b : Byte) : CommandWord := opc ++ a ++ b

/-- A row of the opcode map: `w` is the row's command exactly when `w & mask = match` (R33). -/
structure OpcodeRow where
  mnemonic : Mnemonic
  pattern : CommandWord
  mask : CommandWord
  deriving DecidableEq, Repr

/-- The opcode map (R33). -/
def opcodeMap : List OpcodeRow :=
  [⟨.gfAdd, 0x010000, 0xFF0000⟩, ⟨.gfMul, 0x020000, 0xFF0000⟩, ⟨.gfInv, 0x030000, 0xFF00FF⟩,
   ⟨.gfDiv, 0x040000, 0xFF0000⟩, ⟨.peClr, 0x100000, 0xFFFFFF⟩, ⟨.pePush, 0x110000, 0xFF00FF⟩,
   ⟨.peEval, 0x120000, 0xFF00FF⟩, ⟨.ipClr, 0x200000, 0xFFFFFF⟩, ⟨.ipPush, 0x210000, 0xFF0000⟩,
   ⟨.ipInterp, 0x220000, 0xFFFFFF⟩]

/-- The word is the command of this row (R33). -/
def rowMatches (w : CommandWord) (r : OpcodeRow) : Bool := w &&& r.mask == r.pattern

/-- Operand assembly: what `A` and `B` are for each mnemonic (R32). -/
def instrOf (m : Mnemonic) (a b : Byte) : Instr :=
  match m with
  | .gfAdd => .gfAdd a b
  | .gfMul => .gfMul a b
  | .gfInv => .gfInv a
  | .gfDiv => .gfDiv a b
  | .peClr => .peClr
  | .pePush => .pePush a
  | .peEval => .peEval a
  | .ipClr => .ipClr
  | .ipPush => .ipPush a b
  | .ipInterp => .ipInterp

/-- Under which clause of R35 a word that matches no row falls. -/
def illegalReason (f : Fields) : IllegalWord :=
  if f.opcodeAssigned then .unusedFieldNonzero f.opc f.a f.b else .unassignedOpcode f.opc

/-- Decode a command word: the row it matches, or why it is illegal (R34, R35). -/
def decode (w : CommandWord) : Except IllegalWord Instr :=
  match opcodeMap.find? (rowMatches w) with
  | some r => .ok (instrOf r.mnemonic (wordA w) (wordB w))
  | none => .error (illegalReason (wordFields w))

/-- The instruction's mnemonic (R33). -/
def mnemonicOf : Instr → Mnemonic
  | .gfAdd _ _ => .gfAdd
  | .gfMul _ _ => .gfMul
  | .gfInv _ => .gfInv
  | .gfDiv _ _ => .gfDiv
  | .peClr => .peClr
  | .pePush _ => .pePush
  | .peEval _ => .peEval
  | .ipClr => .ipClr
  | .ipPush _ _ => .ipPush
  | .ipInterp => .ipInterp

/-- The instruction's command word, by the encoding column of R33. -/
def encode : Instr → CommandWord
  | .gfAdd a b => packWord 0x01 a b
  | .gfMul a b => packWord 0x02 a b
  | .gfInv a => packWord 0x03 a 0x00
  | .gfDiv a b => packWord 0x04 a b
  | .peClr => packWord 0x10 0x00 0x00
  | .pePush c => packWord 0x11 c 0x00
  | .peEval x => packWord 0x12 x 0x00
  | .ipClr => packWord 0x20 0x00 0x00
  | .ipPush x y => packWord 0x21 x y
  | .ipInterp => packWord 0x22 0x00 0x00

/-- A command word written as three bytes, the most significant first: `OPC`, `A`, `B` (R20). -/
def wordBytes (w : CommandWord) : List Byte := [wordOpc w, wordA w, wordB w]

/-- Three bytes, the most significant first, read as a command word (R20). No other count of bytes is a command:
there is one length (R30). -/
def wordOfBytes : List Byte → Option CommandWord
  | [opc, a, b] => some (packWord opc a b)
  | _ => none

/-- The command word whose low bits are `w` and whose bits at or above `nbits` are 0, numbered as
spec/opcode_table.json numbers them. -/
def tableWord (nbits w : Nat) : CommandWord := BitVec.ofNat 24 (w % 2 ^ nbits)

/-- The instruction this decoder reads from an opcode-table word of `nbits` bits. A command is one 24-bit word
(R30), so nothing longer is one. -/
def decodeTableWord (nbits w : Nat) : Option Instr :=
  if nbits ≤ 24 then
    match decode (tableWord nbits w) with
    | .ok i => some i
    | .error _ => none
  else none

end Sys2Proof
end

