-- ==== Sys2Proof/Config.lean ====
section
/-! DEFINITION. What is fixed for the life of the hardware: the field polynomial `POLY` (open: one of 30 values),
and the two buffer capacities (spec/00_scope.md R5, R7; spec/10_state.md R17; spec/40_field_alu.md R44). -/

namespace Sys2Proof.Config

/-- The 30 irreducible polynomials of degree 8 over GF(2), the admissible values of `POLY` (R44). PRESUMED (the spec
marks the list as general knowledge, G2), safe: notes/assumptions/1.md. -/
def admissiblePolys : List Poly9 :=
  [0x11B, 0x11D, 0x12B, 0x12D, 0x139, 0x13F, 0x14D, 0x15F, 0x163, 0x165] ++
  [0x169, 0x171, 0x177, 0x17B, 0x187, 0x18B, 0x18D, 0x19F, 0x1A3, 0x1A9] ++
  [0x1B1, 0x1BD, 0x1C3, 0x1CF, 0x1D7, 0x1DD, 0x1E7, 0x1F3, 0x1F5, 0x1F9]

/-- Which of the 30 the hardware has. The source never prints it (spec/91_not_in_source.md N1), so it is an open
parameter: a constant with no body, about which nothing can be proved but that it is one of the 30
(PRESUMED, safe: notes/assumptions/1.md). -/
opaque polyIndex : Fin 30

/-- `POLY`, the field's "fixed irreducible degree-8 polynomial" (R5). -/
def poly : Poly9 := admissiblePolys.get (polyIndex.cast rfl)

/-- `CCAP`: the coefficient buffer holds at most 255 elements (R7). -/
def coefCapacity : Nat := 255

/-- `PCAP`: the point buffer holds at most 256 points (R7). -/
def pointCapacity : Nat := 256

end Sys2Proof.Config
end

