-- ==== Sys2Proof/Machine/Field.lean ====
section
/-! DEFINITION. The arithmetic of GF(2^8) as pure functions (spec/40_field_alu.md R40 to R53), each with `POLY` as an
argument where it depends on it, the horner and Lagrange functions built on them (spec/41_poly_eval.md R59, R60;
spec/42_interp.md R65), and the optional tables (R48, R50, R51). -/

namespace Sys2Proof.Machine

/-- `gf_add(a, b) = a ^ b` (R40). -/
def gfAdd (a b : Byte) : Byte := a ^^^ b

/-- One turn of the loop of `clmul`: bit `i` of `b` adds `a << i` (R42). -/
def clmulStep (a b : Byte) (p : Poly15) (i : Nat) : Poly15 :=
  if b.getLsbD i then p ^^^ (a.setWidth 15 <<< i) else p

/-- `clmul(a, b)`, the carry-less product (R42). -/
def clmul (a b : Byte) : Poly15 := [0, 1, 2, 3, 4, 5, 6, 7].foldl (clmulStep a b) 0

/-- One turn of the loop of `gf_reduce`: a set bit `i` is cancelled by `POLY << (i - 8)` (R43). -/
def reduceStep (poly : Poly9) (p : Poly15) (i : Nat) : Poly15 :=
  if p.getLsbD i then p ^^^ (poly.setWidth 15 <<< (i - 8)) else p

/-- `gf_reduce(p)`: reduction of a 15-bit polynomial modulo `POLY`, `i` running from 14 down to 8 (R43). -/
def gfReduce (poly : Poly9) (p : Poly15) : Byte :=
  ([14, 13, 12, 11, 10, 9, 8].foldl (reduceStep poly) p).setWidth 8

/-- `gf_mul(a, b) = gf_reduce(clmul(a, b))` (R45). -/
def gfMul (poly : Poly9) (a b : Byte) : Byte := gfReduce poly (clmul a b)

/-- Multiplication by `t` modulo `POLY`: the doubling of the bit-serial loop (R47). -/
def gfDouble (poly : Poly9) (a : Byte) : Byte :=
  if a.getLsbD 7 then (a <<< 1) ^^^ poly.setWidth 8 else a <<< 1

/-- One turn of the bit-serial loop over `(r, a)` (R47). -/
def serialStep (poly : Poly9) (b : Byte) (ra : Byte × Byte) (i : Nat) : Byte × Byte :=
  (if b.getLsbD i then ra.1 ^^^ ra.2 else ra.1, gfDouble poly ra.2)

/-- `gf_mul_serial(a, b)` (R47). -/
def gfMulSerial (poly : Poly9) (a b : Byte) : Byte :=
  ([0, 1, 2, 3, 4, 5, 6, 7].foldl (serialStep poly b) (0, a)).1

/-- `gf_pow(a, e)` (R49). -/
def gfPow (poly : Poly9) (a : Byte) : Nat → Byte
  | 0 => 0x01
  | e + 1 => gfMul poly (gfPow poly a e) a

/-- `gf_inv(a)`: no value at `0x00`; otherwise form (b) of R50, `gf_pow(a, 254)` (DEDUCED, safe:
notes/assumptions/9.md). -/
def gfInv (poly : Poly9) (a : Byte) : Option Byte :=
  if a = 0x00 then none else some (gfPow poly a 254)

/-- `gf_div(a, b) = gf_mul(a, gf_inv(b))`: no value when `b = 0x00`, whatever `a` is (R52). -/
def gfDiv (poly : Poly9) (a b : Byte) : Option Byte := (gfInv poly b).map (gfMul poly a)

/-- `horner(c, x)` for the non-empty sequence `c = c0 :: cs`: the last coefficient is the first accumulator (R60). -/
def horner (poly : Poly9) (x : Byte) : Byte → List Byte → Byte
  | c0, [] => c0
  | c0, c1 :: cs => gfAdd (gfMul poly (horner poly x c1 cs) x) c0

/-- The bytes observed at the indices `x` of the polynomial with the constant term `secret` and the drawn coefficients
`c_1..c_d` (R77): at each index its `horner` value, the byte that `SPLIT.BYTE` gives that index (R74). -/
def observed {d m : Nat} (poly : Poly9) (x : Fin m → Byte) (secret : Byte) (c : Fin d → Byte) : Fin m → Byte :=
  fun i => horner poly (x i) secret (List.ofFn c)

/-- The terms `gf_mul(c_j, gf_pow(x, j))` of the power sum, from the exponent `j` on, added up (R59). -/
def powerSumFrom (poly : Poly9) (x : Byte) : Nat → List Byte → Byte
  | _, [] => 0x00
  | j, c :: cs => gfAdd (gfMul poly c (gfPow poly x j)) (powerSumFrom poly x (j + 1) cs)

/-- `P(x) = c_0 + c_1*x + ... + c_{k-1}*x^{k-1}` (R59). -/
def polyValue (poly : Poly9) (cs : List Byte) (x : Byte) : Byte := powerSumFrom poly x 0 cs

/-- The inner loop of `lagrange0`: `term` times `x_j / (x_j - x_i)` over the points `(x_j, j)` with `j ≠ i` (R65).
Each point comes with its position. No value when a divisor is `0x00` (R66). -/
def lagrangeTerm (poly : Poly9) (xi : Byte) (i : Nat) : List (Byte × Nat) → Byte → Option Byte
  | [], term => some term
  | (xj, j) :: rest, term =>
    if j = i then lagrangeTerm poly xi i rest term
    else
      match gfDiv poly xj (gfAdd xj xi) with
      | none => none
      | some f => lagrangeTerm poly xi i rest (gfMul poly term f)

/-- The outer loop of `lagrange0`: the sum of the terms, `y_i` being each term's first factor (R65). -/
def lagrangeSum (poly : Poly9) (xs : List (Byte × Nat)) : List ((Byte × Byte) × Nat) → Byte → Option Byte
  | [], sum => some sum
  | ((xi, yi), i) :: rest, sum =>
    match lagrangeTerm poly xi i xs yi with
    | none => none
    | some term => lagrangeSum poly xs rest (gfAdd sum term)

/-- `lagrange0(pts)`, the value at zero of the interpolant through the points `(x, y)` (R65). -/
def lagrange0 (poly : Poly9) (pts : List (Byte × Byte)) : Option Byte :=
  lagrangeSum poly (pts.map Prod.fst).zipIdx pts.zipIdx 0x00

/-- `g` is a primitive element: its multiplicative order is 255 (R6, R48). `GEN` is an argument of the table functions,
since no result depends on it (DESIGN CHOICE, safe: notes/assumptions/6.md). -/
def IsPrimitive (poly : Poly9) (g : Byte) : Prop :=
  gfPow poly g 255 = 0x01 ∧ ∀ e, 0 < e → e < 255 → gfPow poly g e ≠ 0x01

/-- `exp(e) = gf_pow(GEN, e)`, the exponent table (R48). -/
def gfExp (poly : Poly9) (gen : Byte) (e : Nat) : Byte := gfPow poly gen e

/-- `log(a)`, the first `e` in `0..254` with `exp(e) = a`; it does not exist for `0x00` (R48). -/
def gfLog (poly : Poly9) (gen a : Byte) : Option Nat := (List.range 255).find? fun e => gfExp poly gen e == a

/-- Multiplication by tables, with the zero test (R48). -/
def gfMulTable (poly : Poly9) (gen a b : Byte) : Option Byte :=
  if a = 0x00 ∨ b = 0x00 then some 0x00
  else
    match gfLog poly gen a, gfLog poly gen b with
    | some i, some j => some (gfExp poly gen ((i + j) % 255))
    | _, _ => none

/-- Inversion by tables, the exponent `255 - log(a)` reduced modulo 255 (R50 (c), R51). -/
def gfInvTable (poly : Poly9) (gen a : Byte) : Option Byte :=
  if a = 0x00 then none else (gfLog poly gen a).map fun e => gfExp poly gen ((255 - e) % 255)

end Sys2Proof.Machine
end

