-- ==== Sys2Proof/Machine/State.lean ====
section
/-! DEFINITION. The state of TSS-CORE as plain data: the architectural tuple `(RUN, CLEN, COEF, PLEN, PX, PY)`
(spec/10_state.md R8) and, beside it, the two sides of the port at which the host drives the core
(spec/30_encoding.md R29), with the state after reset. -/

namespace Sys2Proof.Machine

/-- `RUN`, one bit: READY (0) or HALTED (1) (spec/10_state.md R9). -/
inductive RunState where
  | ready
  | halted
  deriving DecidableEq, Repr

/-- The eight fault names of spec/60_exceptions.md R84. They are answers in a response, not ends of the machine. -/
inductive ErrorName where
  /-- `PE.EVAL` on an empty coefficient buffer, `PE.PUSH` on a full one; the driver's parameter checks. -/
  | invalidParameters
  /-- `IP.INTERP` with fewer than two points. -/
  | insufficientShares
  /-- `IP.INTERP` with a repeated index, `IP.PUSH` on a full point buffer. -/
  | duplicateIndex
  /-- Never raised by the core: the driver's payload-length check. -/
  | malformedShares
  /-- A zero divisor, or a zero index reaching `IP.INTERP`: the one halting fault. -/
  | domainError
  /-- A word that matches no row of the opcode map. -/
  | illegalCommand
  /-- `PE.EVAL` at the reserved index 0. -/
  | reservedIndex
  /-- A command that arrived while `RUN = HALTED`. -/
  | halted
  deriving DecidableEq, Repr

/-- A response as the sum type of spec/30_encoding.md R31: `OK(v)` or `ERR(code)`. -/
inductive Response where
  | ok (value : Byte)
  | err (name : ErrorName)
  deriving DecidableEq, Repr

/-- A staged point `(x_i, y_i) = (PX[i], PY[i])` (spec/10_state.md R15). -/
structure Point where
  x : Byte
  y : Byte
  deriving DecidableEq, Repr

/-- What the host may do to the core: present a command word, or assert reset (spec/20_memory.md R24). -/
inductive HostEvent where
  | command (w : CommandWord)
  | reset
  deriving DecidableEq, Repr

/-- The machine's state. `coef` and `points` hold exactly the elements below the lengths, so that `CLEN` is
`coef.length`, `PLEN` is `points.length`, and an element at or above a length holds no value, as R14 and R15
demand (DEDUCED, safe: notes/assumptions/2.md). `pending` and `responses` are the model's own: the host's side of the command port
and of the response port (DESIGN CHOICE, safe: notes/assumptions/3.md). -/
structure State where
  /-- `RUN` (R9). -/
  run : RunState
  /-- `COEF[0 .. CLEN-1]`, the constant term first (R14). -/
  coef : List Byte
  /-- `(PX[0], PY[0]) .. (PX[PLEN-1], PY[PLEN-1])`, the first pushed first (R15). -/
  points : List Point
  /-- The host's coming events, the next one first (R24, R29). -/
  pending : List HostEvent
  /-- Every response returned so far, the oldest first (R29). -/
  responses : List Response
  deriving DecidableEq, Repr

/-- Faults that would stop the machine: there is none. Every fault of R84 is reported in a response and leaves a next
state; the halting `DomainError` leaves the state with `RUN = HALTED` (spec/60_exceptions.md R86, R87), and the step is
total (spec/30_encoding.md R34). So no step raises a `Fault`: safe, nothing is cut short
(DEDUCED: notes/assumptions/16.md). -/
inductive Fault : Type
  deriving DecidableEq, Repr

/-- Refusals. -/
inductive Refusal where
  /-- Raised only by an arm of `exec` whose instruction has no meaning yet; there is no such arm, so no step raises
  it. Safe: the run stops and nothing is concluded. -/
  | notModelled (mnemonic : String)
  deriving DecidableEq, Repr

/-- The machine right after reset or power-on (spec/10_state.md R18; spec/70_reset_and_hazards.md R99): `RUN = READY`,
`CLEN = 0`, `PLEN = 0`, and no buffer element holds a value (DEDUCED, safe: notes/assumptions/4.md); no event has been
presented and no response returned (DESIGN CHOICE, safe: notes/assumptions/17.md). -/
def State.reset : State := { run := .ready, coef := [], points := [], pending := [], responses := [] }

end Sys2Proof.Machine
end

