-- ==== Sys2Proof/Machine/Ops.lean ====
section
/-! DEFINITION. The shared operations on the state: answering a command, raising a fault (the one operation that
models R85 to R88 of spec/60_exceptions.md), the READY test, the buffer updates, reset, and taking the host's next
event. -/

namespace Sys2Proof.Machine

/-- The two classes of faults (spec/60_exceptions.md R85). -/
inductive FaultClass where
  | error
  | panic
  deriving DecidableEq, Repr

/-- `DomainError` is the only panic-class fault (R84, R85). -/
def faultClass : ErrorName → FaultClass
  | .invalidParameters => .error
  | .insufficientShares => .error
  | .duplicateIndex => .error
  | .malformedShares => .error
  | .domainError => .panic
  | .illegalCommand => .error
  | .reservedIndex => .error
  | .halted => .error

/-- Return one response at the response port (spec/30_encoding.md R29). Nothing else changes. -/
def answer (r : Response) (s : State) : State := { s with responses := s.responses ++ [r] }

/-- `respond OK(v)` (spec/00_scope.md section 5). -/
def respondOk (v : Byte) (s : State) : Host.Outcome State Fault Refusal := .next (answer (.ok v) s)

/-- `RUN <- HALTED`. -/
def haltCore (s : State) : State := { s with run := .halted }

/-- `raise F`: an error-class fault is an answer and changes no state (R86); the panic-class fault also sets
`RUN <- HALTED` and changes nothing else (R87). There is no return from a fault but reset (R92). -/
def raise (e : ErrorName) (s : State) : Host.Outcome State Fault Refusal :=
  match faultClass e with
  | .error => .next (answer (.err e) s)
  | .panic => .next (answer (.err e) (haltCore s))

/-- Answer a partial field function: its value, or `DomainError` where it has none (spec/40_field_alu.md R50, R52,
R56, R57). -/
def respondPartial (v : Option Byte) (s : State) : Host.Outcome State Fault Refusal :=
  match v with
  | none => raise .domainError s
  | some r => respondOk r s

/-- The run state is tested before anything else: in HALTED every command is answered `Halted` and changes nothing
(R88; spec/30_encoding.md R34). The meanings make the test as well as the step (DESIGN CHOICE, safe:
notes/assumptions/7.md). -/
def whenReady (k : Host.Outcome State Fault Refusal) (s : State) : Host.Outcome State Fault Refusal :=
  match s.run with
  | .halted => raise .halted s
  | .ready => k

/-- `CLEN <- 0` (spec/41_poly_eval.md R62). -/
def clearCoef (s : State) : State := { s with coef := [] }

/-- `COEF[CLEN] <- c; CLEN <- CLEN + 1`, together (R63; spec/20_memory.md R22, R27). -/
def pushCoef (c : Byte) (s : State) : State := { s with coef := s.coef ++ [c] }

/-- `PLEN <- 0` (spec/42_interp.md R69). -/
def clearPoints (s : State) : State := { s with points := [] }

/-- `PX[PLEN] <- x; PY[PLEN] <- y; PLEN <- PLEN + 1`, together (R70; spec/20_memory.md R22, R27). -/
def pushPoint (q : Point) (s : State) : State := { s with points := s.points ++ [q] }

/-- The reset input: `RUN = READY`, `CLEN = 0`, `PLEN = 0` (spec/70_reset_and_hazards.md R98, R99). Reset produces
no response word and leaves the host's own coming events and past responses alone
(DESIGN CHOICE, safe: notes/assumptions/17.md). -/
def resetCore (s : State) : State := { s with run := .ready, coef := [], points := [] }

/-- The host's next event and the state once it has been taken from the port (spec/20_memory.md R24). -/
def takeEvent (s : State) : Option (HostEvent × State) :=
  match s.pending with
  | [] => none
  | e :: rest => some (e, { s with pending := rest })

/-- Continue with `k` from a next state; a stop stays a stop. -/
def andThen {α β : Type} (o : Host.Outcome α Fault Refusal) (k : α → Host.Outcome β Fault Refusal) :
    Host.Outcome β Fault Refusal :=
  match o with
  | .next a => k a
  | .fault f => .fault f
  | .refused r => .refused r

end Sys2Proof.Machine
end

