-- ==== Sys2Proof/Machine/FieldAlu.lean ====
section
/-! DEFINITION. The field ALU's commands: `GF.ADD`, `GF.MUL`, `GF.INV`, `GF.DIV` (spec/40_field_alu.md R54 to R57). -/

namespace Sys2Proof.Machine

/-- `GF.ADD a, b` (R54). -/
def execGfAdd (a b : Byte) (s : State) : Host.Outcome State Fault Refusal :=
  whenReady (respondOk (gfAdd a b) s) s

/-- `GF.MUL a, b` (R55). -/
def execGfMul (a b : Byte) (s : State) : Host.Outcome State Fault Refusal :=
  whenReady (respondOk (gfMul Config.poly a b) s) s

/-- `GF.INV a` (R56). -/
def execGfInv (a : Byte) (s : State) : Host.Outcome State Fault Refusal :=
  whenReady (respondPartial (gfInv Config.poly a) s) s

/-- `GF.DIV a, b` (R57). -/
def execGfDiv (a b : Byte) (s : State) : Host.Outcome State Fault Refusal :=
  whenReady (respondPartial (gfDiv Config.poly a b) s) s

end Sys2Proof.Machine
end

