-- ==== Sys2Proof/Machine/Operands.lean ====
section
/-! DEFINITION. The operands a command takes from the state: the staged coefficients and points, the two lengths,
and the tests `IP.INTERP` makes on the indices. The operands in the command word itself are assembled by
`instrOf` in Sys2Proof/Decode.lean (spec/30_encoding.md R32). -/

namespace Sys2Proof.Machine

/-- `CLEN`, the number of valid coefficients (spec/10_state.md R13, R14). -/
def State.clen (s : State) : Nat := s.coef.length

/-- `PLEN`, the number of valid points (R13, R15). -/
def State.plen (s : State) : Nat := s.points.length

/-- `CLEN` as the 8-bit register of R13. -/
def State.clenReg (s : State) : BitVec 8 := BitVec.ofNat 8 s.clen

/-- `PLEN` as the 9-bit register of R13. -/
def State.plenReg (s : State) : BitVec 9 := BitVec.ofNat 9 s.plen

/-- `PX[0 .. PLEN-1]` (R15). -/
def State.px (s : State) : List Byte := s.points.map Point.x

/-- `PY[0 .. PLEN-1]` (R15). -/
def State.py (s : State) : List Byte := s.points.map Point.y

/-- `COEF[j]`: a value below `CLEN`, none at or above it (R14). -/
def State.coefAt (s : State) (j : Nat) : Option Byte := s.coef[j]?

/-- `(PX[i], PY[i])`: a value below `PLEN`, none at or above it (R15). -/
def State.pointAt (s : State) (i : Nat) : Option Point := s.points[i]?

/-- Both lengths are legal values of their registers: `CLEN` 0 to 255, `PLEN` 0 to 256 (R13). -/
def State.wf (s : State) : Bool := s.clen ≤ Config.coefCapacity && s.plen ≤ Config.pointCapacity

/-- Two of these indices are equal (spec/42_interp.md R71, second test). -/
def hasDuplicate : List Byte → Bool
  | [] => false
  | x :: xs => xs.contains x || hasDuplicate xs

/-- One of these indices is `0x00` (R71, third test). -/
def hasZero (xs : List Byte) : Bool := xs.contains 0x00

end Sys2Proof.Machine
end

