-- ==== Sys2Proof/Machine/Interp.lean ====
section
/-! DEFINITION. The interpolation core's commands: `IP.CLR`, `IP.PUSH`, `IP.INTERP` (spec/42_interp.md R69 to R71). -/

namespace Sys2Proof.Machine

/-- `IP.CLR` (R69). -/
def execIpClr (s : State) : Host.Outcome State Fault Refusal :=
  whenReady (respondOk 0x00 (clearPoints s)) s

/-- `IP.PUSH x, y` (R70). The test is written "at least the capacity", which for every legal `PLEN` is the rule's
`PLEN = 256` (DEDUCED, safe: notes/assumptions/8.md). No other check is made here. -/
def execIpPush (x y : Byte) (s : State) : Host.Outcome State Fault Refusal :=
  whenReady (if Config.pointCapacity ≤ s.plen then raise .duplicateIndex s else respondOk 0x00 (pushPoint ⟨x, y⟩ s)) s

/-- The staged points as the pairs `lagrange0` takes (R65, R71). -/
def stagedPairs (s : State) : List (Byte × Byte) := s.points.map fun q => (q.x, q.y)

/-- `IP.INTERP` (R71): three tests in the order written, all before any field operation, then `lagrange0`. The
partial answer's `DomainError` is the one a `gf_div` would raise; after the second test no divisor is zero (R66; DEDUCED, safe:
notes/assumptions/10.md). -/
def execIpInterp (s : State) : Host.Outcome State Fault Refusal :=
  whenReady
    (if s.plen < 2 then raise .insufficientShares s
     else if hasDuplicate s.px then raise .duplicateIndex s
     else if hasZero s.px then raise .domainError s
     else respondPartial (lagrange0 Config.poly (stagedPairs s)) s) s

end Sys2Proof.Machine
end

