-- ==== Sys2Proof/Machine/PolyEval.lean ====
section
/-! DEFINITION. The polynomial evaluator's commands: `PE.CLR`, `PE.PUSH`, `PE.EVAL` (spec/41_poly_eval.md R62 to R64). -/

namespace Sys2Proof.Machine

/-- `PE.CLR` (R62). -/
def execPeClr (s : State) : Host.Outcome State Fault Refusal :=
  whenReady (respondOk 0x00 (clearCoef s)) s

/-- `PE.PUSH c` (R63). The test is written "at least the capacity", which for every legal `CLEN` is the rule's
`CLEN = 255` (DEDUCED, safe: notes/assumptions/8.md). -/
def execPePush (c : Byte) (s : State) : Host.Outcome State Fault Refusal :=
  whenReady (if Config.coefCapacity ≤ s.clen then raise .invalidParameters s else respondOk 0x00 (pushCoef c s)) s

/-- `PE.EVAL x` (R64): the empty buffer is tested before the reserved index (spec/60_exceptions.md R90). -/
def execPeEval (x : Byte) (s : State) : Host.Outcome State Fault Refusal :=
  whenReady
    (match s.coef with
    | [] => raise .invalidParameters s
    | c0 :: cs => if x = 0x00 then raise .reservedIndex s else respondOk (horner Config.poly x c0 cs) s) s

end Sys2Proof.Machine
end

