-- ==== Sys2Proof/Machine/Dispatch.lean ====
section
/-! DEFINITION. One arm per command: which rule executes it (spec/30_encoding.md R33, R34). -/

namespace Sys2Proof.Machine

def exec (i : Instr) (s : State) : Host.Outcome State Fault Refusal :=
  match i with
  | .gfAdd a b => Sys2Proof.Machine.execGfAdd a b s
  | .gfMul a b => Sys2Proof.Machine.execGfMul a b s
  | .gfInv a => Sys2Proof.Machine.execGfInv a s
  | .gfDiv a b => Sys2Proof.Machine.execGfDiv a b s
  | .peClr => Sys2Proof.Machine.execPeClr s
  | .pePush c => Sys2Proof.Machine.execPePush c s
  | .peEval x => Sys2Proof.Machine.execPeEval x s
  | .ipClr => Sys2Proof.Machine.execIpClr s
  | .ipPush x y => Sys2Proof.Machine.execIpPush x y s
  | .ipInterp => Sys2Proof.Machine.execIpInterp s

end Sys2Proof.Machine
end

