-- ==== Sys2Proof/Machine/Transaction.lean ====
section
/-! DEFINITION. One transaction: the step of spec/30_encoding.md R34 on a command word, the host's two events
(spec/20_memory.md R24), and a run of a list of words (spec/70_reset_and_hazards.md R103). -/

namespace Sys2Proof.Machine

/-- `step(S, w)` of R34: HALTED is tested first, then the word is decoded, then the matching row's rule runs.
A transaction is one step, with no time in it (DESIGN CHOICE, unsafe: notes/assumptions/12.md). -/
def execWord (w : CommandWord) (s : State) : Host.Outcome State Fault Refusal :=
  whenReady
    (match decode w with
    | .ok i => exec i s
    | .error _ => raise .illegalCommand s) s

/-- The core's reaction to one event of the host: a command is executed, reset resets (R24; R98). -/
def acceptEvent (e : HostEvent) (s : State) : Host.Outcome State Fault Refusal :=
  match e with
  | .command w => execWord w s
  | .reset => .next (resetCore s)

/-- Take the host's next event and react to it. With no event presented nothing happens to the core
(spec/60_exceptions.md R93): the state stays as it is (DESIGN CHOICE, safe: notes/assumptions/5.md). -/
def nextTransaction (s : State) : Host.Outcome State Fault Refusal :=
  match takeEvent s with
  | none => .next s
  | some (e, t) => acceptEvent e t

/-- A run: a finite list of command words presented in order, with no reset in between (R103). -/
def runWords : List CommandWord → State → Host.Outcome State Fault Refusal
  | [], s => .next s
  | w :: ws, s => andThen (execWord w s) (runWords ws)

/-- Present this word as the host's very next event. -/
def presentWord (w : CommandWord) (s : State) : State := { s with pending := .command w :: s.pending }

end Sys2Proof.Machine
end

