-- ==== Sys2Proof/Machine/Assembler.lean ====
section
/-! DEFINITION. The assembler of spec/30_encoding.md R36: one command per line, the mnemonic in upper case with its
dot, operands separated by a comma, decimal or `0x` hexadecimal numbers from 0 to 255, `;` starting a comment. A line
is a list of characters. The lexical details R36 leaves open (15), the place of blanks around the mnemonic (19) and the
kinds of errors with the one reported of several (20) are DESIGN CHOICEs, safe: notes/assumptions/15.md, 19.md, 20.md. -/

namespace Sys2Proof.Machine

/-- The assembly errors of R36. An assembly error is no command. R36 names no kinds of errors; these four are a
DESIGN CHOICE, safe: notes/assumptions/20.md. -/
inductive AsmError where
  /-- The first word of the line is no mnemonic of the opcode map. -/
  | unknownMnemonic
  /-- An operand is no decimal or hexadecimal number. -/
  | notANumber
  /-- An operand outside 0..255. -/
  | operandOutOfRange
  /-- A missing operand or an extra operand. -/
  | wrongOperandCount
  deriving DecidableEq, Repr

/-- The mnemonics as R33 spells them. -/
def mnemonicText : Mnemonic → List Char
  | .gfAdd => ['G', 'F', '.', 'A', 'D', 'D']
  | .gfMul => ['G', 'F', '.', 'M', 'U', 'L']
  | .gfInv => ['G', 'F', '.', 'I', 'N', 'V']
  | .gfDiv => ['G', 'F', '.', 'D', 'I', 'V']
  | .peClr => ['P', 'E', '.', 'C', 'L', 'R']
  | .pePush => ['P', 'E', '.', 'P', 'U', 'S', 'H']
  | .peEval => ['P', 'E', '.', 'E', 'V', 'A', 'L']
  | .ipClr => ['I', 'P', '.', 'C', 'L', 'R']
  | .ipPush => ['I', 'P', '.', 'P', 'U', 'S', 'H']
  | .ipInterp => ['I', 'P', '.', 'I', 'N', 'T', 'E', 'R', 'P']

/-- The mnemonic with this text. -/
def mnemonicOfText (cs : List Char) : Option Mnemonic :=
  (opcodeMap.map OpcodeRow.mnemonic).find? fun m => mnemonicText m == cs

/-- A space or a tab. -/
def isBlank (c : Char) : Bool := c == ' ' || c == '\t'

/-- The line without its comment. -/
def stripComment (cs : List Char) : List Char := cs.takeWhile (· != ';')

/-- The text without the blanks at both ends. -/
def trimBlanks (cs : List Char) : List Char := ((cs.dropWhile isBlank).reverse.dropWhile isBlank).reverse

/-- Split a text at every comma. -/
def splitCommas : List Char → List (List Char)
  | [] => [[]]
  | c :: cs =>
    match splitCommas cs with
    | [] => [[c]]
    | piece :: more => if c == ',' then [] :: piece :: more else (c :: piece) :: more

/-- The digits in rising order, the letters as R36's examples write them (`0xD1`). -/
def upperDigits : List Char := ['0', '1', '2', '3', '4', '5', '6', '7', '8', '9', 'A', 'B', 'C', 'D', 'E', 'F']

/-- The same digits with small letters. -/
def lowerDigits : List Char := upperDigits.map Char.toLower

/-- The value of a digit to this base: its place among the first `base` digits, in either case of the letters. -/
def digitValue (base : Nat) (c : Char) : Option Nat :=
  ((upperDigits.take base).idxOf? c).or ((lowerDigits.take base).idxOf? c)

/-- The number that a row of digits writes to this base, the most significant digit first. -/
def digitsValue (base : Nat) (ds : List Char) : Option Nat :=
  ds.foldlM (fun acc c => (digitValue base c).map (acc * base + ·)) 0

/-- A number in decimal, or in hexadecimal with `0x` before it. -/
def numberValue : List Char → Option Nat
  | [] => none
  | ['0', 'x'] => none
  | '0' :: 'x' :: ds => digitsValue 16 ds
  | ds => digitsValue 10 ds

/-- One operand: a number from 0 to 255. -/
def operandValue (cs : List Char) : Except AsmError Byte :=
  match numberValue (trimBlanks cs) with
  | none => .error .notANumber
  | some v => if v ≤ 255 then .ok (BitVec.ofNat 8 v) else .error .operandOutOfRange

/-- The operands, in order. Of several bad operands the first is reported (DESIGN CHOICE, safe:
notes/assumptions/20.md). -/
def operandValues : List (List Char) → Except AsmError (List Byte)
  | [] => .ok []
  | cs :: rest =>
    match operandValue cs with
    | .error e => .error e
    | .ok v => (operandValues rest).map (v :: ·)

/-- The instruction of a mnemonic and its operands, which must be as many as R32 gives it. -/
def assembleInstr : Mnemonic → List Byte → Except AsmError Instr
  | .gfAdd, [a, b] => .ok (.gfAdd a b)
  | .gfMul, [a, b] => .ok (.gfMul a b)
  | .gfInv, [a] => .ok (.gfInv a)
  | .gfDiv, [a, b] => .ok (.gfDiv a b)
  | .peClr, [] => .ok .peClr
  | .pePush, [c] => .ok (.pePush c)
  | .peEval, [x] => .ok (.peEval x)
  | .ipClr, [] => .ok .ipClr
  | .ipPush, [x, y] => .ok (.ipPush x y)
  | .ipInterp, [] => .ok .ipInterp
  | _, _ => .error .wrongOperandCount

/-- Assemble one line: its command word, or no word for a line with nothing but blanks and a comment (R36). Blanks may
stand before the mnemonic, and a blank must stand between it and the first operand (DESIGN CHOICE, safe:
notes/assumptions/19.md). A line with several errors gets one of them, in the order mnemonic, operands from the left,
number of operands: `GF.ADD 300` is out of range, not short of an operand (DESIGN CHOICE, safe:
notes/assumptions/20.md). -/
def assembleLine (line : List Char) : Except AsmError (Option CommandWord) :=
  match trimBlanks (stripComment line) with
  | [] => .ok none
  | text =>
    match mnemonicOfText (text.takeWhile fun c => !isBlank c) with
    | none => .error .unknownMnemonic
    | some m =>
      match trimBlanks (text.dropWhile fun c => !isBlank c) with
      | [] => (assembleInstr m []).map fun i => some (encode i)
      | ops =>
        match operandValues (splitCommas ops) with
        | .error e => .error e
        | .ok vs => (assembleInstr m vs).map fun i => some (encode i)

end Sys2Proof.Machine
end

