-- ==== Sys2Proof/Machine/Driver.lean ====
section
/-! DEFINITION. The host side: the four pseudo-instructions `SPLIT.BYTE`, `COMBINE.BYTE`, `split` and `combine`, which
drive the core by lists of command words and read its responses (spec/30_encoding.md R37;
spec/43_split_combine_sequences.md R72 to R81). None has an encoding of its own. -/

namespace Sys2Proof.Machine

/-- A share: "a pair (index, payload)" (R72). -/
structure Share where
  index : Byte
  payload : List Byte
  deriving DecidableEq, Repr

/-- What a host procedure returns, and the core's state after it. -/
abbrev DriverOutcome (α : Type) := Host.Outcome (Except ErrorName α × State) Fault Refusal

/-- The responses a run added at the port. -/
def newResponses (before after : State) : List Response := after.responses.drop before.responses.length

/-- The `VAL` fields of a list of responses when all are OK, the first fault otherwise
(spec/60_exceptions.md R91: "the host reading `STAT`"). -/
def responseVals : List Response → Except ErrorName (List Byte)
  | [] => .ok []
  | .err e :: _ => .error e
  | .ok v :: rest => (responseVals rest).map (v :: ·)

/-- Issue a list of command words and collect the `VAL` fields of their responses. -/
def runForVals (ws : List CommandWord) (s : State) : DriverOutcome (List Byte) :=
  andThen (runWords ws s) fun t => .next (responseVals (newResponses s t), t)

/-- The expansion of `SPLIT.BYTE c0, k, (c_1 .. c_{k-1}), (x_1 .. x_n)` with `k = cs.length + 1` (R74). -/
def splitByteWords (c0 : Byte) (cs xs : List Byte) : List CommandWord :=
  encode .peClr :: encode (.pePush c0) ::
    (cs.map (fun c => encode (.pePush c)) ++ xs.map fun x => encode (.peEval x))

/-- `SPLIT.BYTE`: the `n` bytes `y_i` are the `VAL` fields of the last `n` responses (R74). -/
def splitByte (c0 : Byte) (cs xs : List Byte) (s : State) : DriverOutcome (List Byte) :=
  andThen (runForVals (splitByteWords c0 cs xs) s) fun r => .next (r.1.map (List.drop (2 + cs.length)), r.2)

/-- The expansion of `COMBINE.BYTE ((x_1,y_1) .. (x_m,y_m))` (R79). -/
def combineByteWords (pts : List (Byte × Byte)) : List CommandWord :=
  encode .ipClr :: (pts.map (fun q => encode (.ipPush q.1 q.2)) ++ [encode .ipInterp])

/-- `COMBINE.BYTE`: the result is the `VAL` field of the last response (R79). -/
def combineByte (pts : List (Byte × Byte)) (s : State) : DriverOutcome Byte :=
  andThen (runForVals (combineByteWords pts) s) fun r => .next (r.1.map (List.getLastD · 0x00), r.2)

/-- The loop of `split` over the byte positions, from position `j` on: for every position the `n` bytes of
`SPLIT.BYTE`. `draw j i` is the coefficient `c_{i+1}` drawn for position `j`, a free input under no law (R75, R76,
R78; DESIGN CHOICE, safe: notes/assumptions/14.md). The host stops at the first faulting position (DESIGN CHOICE, safe:
notes/assumptions/13.md). -/
def splitRows (k : Nat) (xs : List Byte) (draw : Nat → Nat → Byte) :
    Nat → List Byte → State → DriverOutcome (List (List Byte))
  | _, [], s => .next (.ok [], s)
  | j, b :: bs, s =>
    andThen (splitByte b ((List.range (k - 1)).map (draw j)) xs s) fun r =>
      match r with
      | (.error e, t) => .next (.error e, t)
      | (.ok ys, t) => andThen (splitRows k xs draw (j + 1) bs t) fun q => .next (q.1.map (ys :: ·), q.2)

/-- `payload_i[j] <- y_i`: share `i` takes the `i`-th byte of every position's row (R74, R75). -/
def sharesOfRows (xs : List Byte) (rows : List (List Byte)) : List Share :=
  xs.zipIdx.map fun xi => ⟨xi.1, rows.map fun row => row.getD xi.2 0x00⟩

/-- `split` once its checks have passed, for any assignment `xs` of indices ("any distinct nonzero assignment is
valid", R75). -/
def splitAt (k : Nat) (xs : List Byte) (draw : Nat → Nat → Byte) (secret : List Byte) (s : State) :
    DriverOutcome (List Share) :=
  andThen (splitRows k xs draw 0 secret s) fun r => .next (r.1.map (sharesOfRows xs), r.2)

/-- The conventional indices `1, 2, ..., n` (R75). -/
def indicesUpTo (n : Nat) : List Byte := (List.range n).map fun i => BitVec.ofNat 8 (i + 1)

/-- The parameters `split` rejects: "`k=0`, `k>n`, `n=0`, `n>255`, or `secret` empty" (R75). -/
def splitRejects (secret : List Byte) (n k : Nat) : Bool :=
  k == 0 || n < k || n == 0 || 255 < n || secret.isEmpty

/-- `split(secret, n, k)`, the checks made before any command is issued (R75). -/
def split (secret : List Byte) (n k : Nat) (draw : Nat → Nat → Byte) (s : State) : DriverOutcome (List Share) :=
  if splitRejects secret n k then .next (.error .invalidParameters, s)
  else splitAt k (indicesUpTo n) draw secret s

/-- The points of byte position `j` (R80). A byte beyond a payload's end reads as `0x00`, which is never reached (DESIGN
CHOICE, safe: notes/assumptions/18.md). -/
def sharePoints (shares : List Share) (j : Nat) : List (Byte × Byte) :=
  shares.map fun sh => (sh.index, sh.payload.getD j 0x00)

/-- The loop of `combine` over the byte positions listed (R80). The host stops at the first faulting position. -/
def combineRows (shares : List Share) : List Nat → State → DriverOutcome (List Byte)
  | [], s => .next (.ok [], s)
  | j :: js, s =>
    andThen (combineByte (sharePoints shares j) s) fun r =>
      match r with
      | (.error e, t) => .next (.error e, t)
      | (.ok v, t) => andThen (combineRows shares js t) fun q => .next (q.1.map (v :: ·), q.2)

/-- The length of the first payload (R80). -/
def payloadLength (shares : List Share) : Nat := (shares.map fun sh => sh.payload.length).headD 0

/-- Two payload lengths differ (R80). -/
def lengthsDiffer (shares : List Share) : Bool := shares.any fun sh => sh.payload.length != payloadLength shares

/-- `combine(shares)`, the three checks in the order written and before any command is issued (R80, R81). -/
def combine (shares : List Share) (s : State) : DriverOutcome (List Byte) :=
  if shares.length < 2 then .next (.error .insufficientShares, s)
  else if hasDuplicate (shares.map Share.index) then .next (.error .duplicateIndex, s)
  else if lengthsDiffer shares then .next (.error .malformedShares, s)
  else combineRows shares (List.range (payloadLength shares)) s

end Sys2Proof.Machine
end

