-- ==== Sys2Proof/Machine/Flags.lean ====
section
/-! DEFINITION. TSS-CORE has no flag (spec/10_state.md R12). The only status a command produces is the `STAT` field
of its response; this file computes the bits of the response word (spec/30_encoding.md R31; spec/60_exceptions.md R84). -/

namespace Sys2Proof.Machine

/-- The bit `RUN` holds: READY 0, HALTED 1 (spec/10_state.md R9). -/
def runBit : RunState → BitVec 1
  | .ready => 0
  | .halted => 1

/-- The fault codes of R84. -/
def errorCode : ErrorName → Byte
  | .invalidParameters => 0x01
  | .insufficientShares => 0x02
  | .duplicateIndex => 0x03
  | .malformedShares => 0x04
  | .domainError => 0x05
  | .illegalCommand => 0x06
  | .reservedIndex => 0x07
  | .halted => 0x08

/-- `STAT`: `0x00` for OK, otherwise the fault code (R31). -/
def respStat : Response → Byte
  | .ok _ => 0x00
  | .err e => errorCode e

/-- `VAL`: the result byte, `0x00` on a fault (R31). -/
def respVal : Response → Byte
  | .ok v => v
  | .err _ => 0x00

/-- The response word `STAT ++ VAL` (R31). -/
def respWord (r : Response) : ResponseWord := respStat r ++ respVal r

/-- A response word written as two bytes, the most significant first: `STAT`, `VAL` (spec/20_memory.md R20). -/
def respBytes (r : Response) : List Byte := [respStat r, respVal r]

end Sys2Proof.Machine
end

