-- ==== Sys2Proof/Safety.lean ====
section
/-! DEFINITION. The terms claims are stated in: what a run that ends well is (spec/70_reset_and_hazards.md R103), the
relation between commands and faults (spec/60_exceptions.md R89, R90), the invariant every step keeps, divisibility by
`POLY` for the claims about the field, and the laws of the observed bytes (spec/43_split_combine_sequences.md R77). -/

namespace Sys2Proof.Machine

/-- A run ends well when its final `RUN` is READY (R103). -/
def EndsWell (s : State) : Prop := s.run = .ready

/-- A run ends badly when its final `RUN` is HALTED (R103). -/
def EndsBadly (s : State) : Prop := s.run = .halted

/-- The fault a command raises in READY, if any: the table of R89 read with the priorities of R90. -/
def commandFault (i : Instr) (s : State) : Option ErrorName :=
  match i with
  | .gfAdd _ _ => none
  | .gfMul _ _ => none
  | .gfInv a => if a = 0x00 then some .domainError else none
  | .gfDiv _ b => if b = 0x00 then some .domainError else none
  | .peClr => none
  | .pePush _ => if 255 ≤ s.clen then some .invalidParameters else none
  | .peEval x =>
    if s.clen = 0 then some .invalidParameters else if x = 0x00 then some .reservedIndex else none
  | .ipClr => none
  | .ipPush _ _ => if 256 ≤ s.plen then some .duplicateIndex else none
  | .ipInterp =>
    if s.plen < 2 then some .insufficientShares
    else if ¬ s.px.Nodup then some .duplicateIndex
    else if 0x00 ∈ s.px then some .domainError
    else none

/-- What every step keeps: the lengths are legal values of their registers (spec/10_state.md R13), and a HALTED core
has answered some command with `DomainError` (R9). -/
def StateInv (s : State) : Prop := s.wf = true ∧ (s.run = .halted → .err .domainError ∈ s.responses)

/-- The architectural state of R8, without the two sides of the port. -/
def archState (s : State) : RunState × List Byte × List Point := (s.run, s.coef, s.points)

/-- The product `q · POLY` as a 15-bit polynomial, for a `q` of degree at most 6: bit `i` of `q` adds `POLY << i`. -/
def timesPoly (poly : Poly9) (q : BitVec 7) : Poly15 :=
  [0, 1, 2, 3, 4, 5, 6].foldl (fun p i => if q.getLsbD i then p ^^^ (poly.setWidth 15 <<< i) else p) 0

/-- For this secret byte the bytes observed at `x` are uniform, when the `d` drawn coefficients are uniform and
independent, which is the uniform law on all their sequences (R77). -/
def ObservedUniform (poly : Poly9) (d : Nat) {m : Nat} (x : Fin m → Byte) (secret : Byte) : Prop :=
  (PMF.uniformOfFintype (Fin d → Byte)).map (observed poly x secret) = PMF.uniformOfFintype (Fin m → Byte)

/-- The bytes observed at `x` are independent of a secret byte with the law `prior`, drawn apart from the `d` uniform
coefficients: the joint law of the secret and the observed bytes is that of the secret and of uniform bytes drawn apart
from it (R77). -/
def ObservedIndependent (poly : Poly9) (d : Nat) {m : Nat} (x : Fin m → Byte) (prior : PMF Byte) : Prop :=
  (prior.bind fun secret =>
      (PMF.uniformOfFintype (Fin d → Byte)).map fun c => (secret, observed poly x secret c)) =
    prior.bind fun secret => (PMF.uniformOfFintype (Fin m → Byte)).map fun y => (secret, y)

end Sys2Proof.Machine
end

