-- ==== Sys2Proof/Certificates/Slice0/Obligations.lean ====
section
/-! DEFINITION. The statements for the provers, taken from the numbered rules of spec/. Each result statement of a
command is an equation `exec … = .next t` whose `t` is written as a record update, so it states completion, result
and frame at once: every field not named is unchanged. Where `POLY` matters the machine's statements speak of
`Config.poly`, and the pure ones of every admissible polynomial. -/

open Sys2Proof Sys2Proof.Machine

/-! ## Reset, the port and the step -/

/-- R18, R99: after reset `RUN = READY`, `CLEN = 0`, `PLEN = 0`, and no element of a buffer holds a value. -/
def Obligations.ResetIsReadyAndEmpty : Prop :=
  State.reset.run = .ready ∧ State.reset.clen = 0 ∧ State.reset.plen = 0 ∧
    (∀ j, State.reset.coefAt j = none) ∧ ∀ i, State.reset.pointAt i = none

/-- R98, R99: the reset event, in any state, READY or HALTED, leads to READY with both lengths 0 and returns no
response. -/
def Obligations.ResetEventLeavesReadyEmpty : Prop :=
  ∀ (s : State) (rest : List HostEvent), s.pending = .reset :: rest →
    step s = .next { s with run := .ready, coef := [], points := [], pending := rest }

/-- R93: nothing happens to the core between commands: with no event presented a step changes nothing. -/
def Obligations.NothingHappensBetweenCommands : Prop :=
  ∀ s : State, s.pending = [] → step s = .next s

/-- R34, the step on a presented word: HALTED is tested first, then the word is decoded, then the decoded command is
executed. Around that the step only takes the word from the port. -/
def Obligations.StepExecutesTheDecodedCommand : Prop :=
  ∀ (s : State) (w : CommandWord) (rest : List HostEvent), s.pending = .command w :: rest →
    (∀ i, s.run = .ready → decode w = .ok i → step s = exec i { s with pending := rest }) ∧
    (∀ why, s.run = .ready → decode w = .error why →
      step s = .next { s with pending := rest, responses := s.responses ++ [.err .illegalCommand] }) ∧
    (s.run = .halted → step s = .next { s with pending := rest, responses := s.responses ++ [.err .halted] })

/-- R88: in HALTED every word, legal or not, is answered `Halted`, response `0x0800`, and nothing else changes. -/
def Obligations.HaltedCoreAnswersHalted : Prop :=
  respWord (.err .halted) = 0x0800 ∧
    ∀ (s : State) (w : CommandWord), s.run = .halted →
      execWord w s = .next { s with responses := s.responses ++ [.err .halted] }

/-- R88 for the ten commands' own meanings: each is answered `Halted` in HALTED. -/
def Obligations.HaltedCoreExecutesNoCommand : Prop :=
  ∀ (i : Instr) (s : State), s.run = .halted →
    exec i s = .next { s with responses := s.responses ++ [.err .halted] }

/-- R34, R29: every word in every state yields exactly one response and one next state; no step stops. -/
def Obligations.StepIsTotalWithOneResponse : Prop :=
  (∀ (s : State) (w : CommandWord), ∃ (r : Response) (t : State),
      execWord w s = .next t ∧ t.responses = s.responses ++ [r] ∧ t.pending = s.pending) ∧
    ∀ s : State, ∃ t, step s = .next t

/-- R103: running a list of words is stepping the machine with those words pending. -/
def Obligations.RunIsSteppingThePendingWords : Prop :=
  ∀ (ws : List CommandWord) (s t : State), s.pending = [] → runWords ws s = .next t →
    Host.Core.run core ws.length { s with pending := ws.map .command } = .next t

/-- R103, R88: once HALTED, every later response of a run is `Halted`, and the run ends badly. -/
def Obligations.RunFromHaltedOnlyAnswersHalted : Prop :=
  ∀ (ws : List CommandWord) (s : State), s.run = .halted →
    ∃ t, runWords ws s = .next t ∧ EndsBadly t ∧ archState t = archState s ∧
      t.responses = s.responses ++ List.replicate ws.length (.err .halted)

/-! ## Encoding -/

/-- Decode and encode agree, for every command and every operand. -/
def Obligations.DecodeOfEncode : Prop := ∀ i : Instr, decode (encode i) = .ok i

/-- Each legal word has one meaning: the encoder gives back the word that was decoded. -/
def Obligations.EncodeOfDecode : Prop := ∀ (w : CommandWord) (i : Instr), decode w = .ok i → encode i = w

/-- R35: the words that decode are exactly those whose fields pass the checks of the rule's prose, and a READY core
answers every other word `IllegalCommand`, response `0x0600`, and changes nothing. -/
def Obligations.IllegalWordsAreAnsweredIllegalCommand : Prop :=
  respWord (.err .illegalCommand) = 0x0600 ∧
    (∀ w : CommandWord, (∃ i, decode w = .ok i) ↔ (wordFields w).wellFormed = true) ∧
    ∀ (w : CommandWord) (s : State), s.run = .ready → (wordFields w).wellFormed = false →
      execWord w s = .next { s with responses := s.responses ++ [.err .illegalCommand] }

/-- R33: no two rows of the opcode map match the same word, and a word that matches a row is that row's command with
the word's own operands. -/
def Obligations.OpcodeRowsDecideTheCommand : Prop :=
  ∀ (w : CommandWord) (r : OpcodeRow), r ∈ opcodeMap → rowMatches w r = true →
    decode w = .ok (instrOf r.mnemonic (wordA w) (wordB w)) ∧
      ∀ r' ∈ opcodeMap, rowMatches w r' = true → r' = r

/-- One word of each family, and two illegal ones, decoded as R33 and R35 give them. -/
def Obligations.SampleWordsDecode : Prop :=
  decode 0x025783 = .ok (.gfMul 0x57 0x83) ∧ decode 0x035300 = .ok (.gfInv 0x53) ∧
    decode 0x114100 = .ok (.pePush 0x41) ∧ decode 0x2102D1 = .ok (.ipPush 0x02 0xD1) ∧
    decode 0x220000 = .ok .ipInterp ∧ decode 0x000000 = .error (.unassignedOpcode 0x00) ∧
    decode 0x035301 = .error (.unusedFieldNonzero 0x03 0x53 0x01)

/-- R36: the five examples of the assembler's rule. -/
def Obligations.AssemblerExamples : Prop :=
  assembleLine ['G', 'F', '.', 'M', 'U', 'L', ' ', '0', 'x', '5', '7', ',', ' ', '0', 'x', '8', '3'] = .ok (some 0x025783) ∧
  assembleLine ['G', 'F', '.', 'I', 'N', 'V', ' ', '0', 'x', '5', '3'] = .ok (some 0x035300) ∧
  assembleLine ['P', 'E', '.', 'P', 'U', 'S', 'H', ' ', '0', 'x', '4', '1'] = .ok (some 0x114100) ∧
  assembleLine ['I', 'P', '.', 'P', 'U', 'S', 'H', ' ', '2', ',', ' ', '0', 'x', 'D', '1'] = .ok (some 0x2102D1) ∧
  assembleLine ['I', 'P', '.', 'I', 'N', 'T', 'E', 'R', 'P'] = .ok (some 0x220000)

/-- R31: the response word of an OK is `0x00 ++ v`, that of a fault is its code and `0x00`, and a fault's `STAT` is
never `0x00`. -/
def Obligations.ResponseWordLayout : Prop :=
  (∀ v : Byte, respWord (.ok v) = (0x00 : Byte) ++ v) ∧
    (∀ e : ErrorName, respWord (.err e) = errorCode e ++ (0x00 : Byte)) ∧ ∀ e : ErrorName, errorCode e ≠ 0x00

/-- R84: the eight codes, and no other `STAT` value than those and OK. -/
def Obligations.StatCodes : Prop :=
  errorCode .invalidParameters = 0x01 ∧ errorCode .insufficientShares = 0x02 ∧ errorCode .duplicateIndex = 0x03 ∧
    errorCode .malformedShares = 0x04 ∧ errorCode .domainError = 0x05 ∧ errorCode .illegalCommand = 0x06 ∧
    errorCode .reservedIndex = 0x07 ∧ errorCode .halted = 0x08 ∧ ∀ r : Response, (respStat r).toNat ≤ 8

/-! ## The field -/

/-- R41: the laws of `gf_add`. -/
def Obligations.GfAddLaws : Prop :=
  ∀ a b c : Byte, gfAdd a b = gfAdd b a ∧ gfAdd (gfAdd a b) c = gfAdd a (gfAdd b c) ∧ gfAdd a a = 0x00 ∧
    gfAdd a 0x00 = a

/-- R42: bit `j` of `clmul(a, b)` is the exclusive-or of `a[i] & b[j-i]` over the `i` with both indices in range. -/
def Obligations.ClmulBitIsTheConvolution : Prop :=
  ∀ (a b : Byte) (j : Nat), j < 15 → (clmul a b).getLsbD j =
    ((List.range 8).filter fun i => decide (i ≤ j ∧ j - i ≤ 7)).foldr
      (fun i acc => (a.getLsbD i && b.getLsbD (j - i)) ^^ acc) false

/-- R43: `gf_reduce(p)` is the one byte congruent to `p` modulo `POLY`. -/
def Obligations.GfReduceIsTheRemainder : Prop :=
  ∀ poly : Poly9, poly.getLsbD 8 = true → ∀ p : Poly15,
    (∃ q : BitVec 7, p = timesPoly poly q ^^^ (gfReduce poly p).setWidth 15) ∧
      ∀ r : Byte, (∃ q : BitVec 7, p = timesPoly poly q ^^^ r.setWidth 15) → r = gfReduce poly p

/-- R44: the 30 listed polynomials are exactly the 9-bit values with bit 8 set that are no product of two polynomials
of lower degree. -/
def Obligations.AdmissiblePolysAreTheIrreducibleOnes : Prop :=
  ∀ poly : Poly9, poly ∈ Config.admissiblePolys ↔
    poly.getLsbD 8 = true ∧ ∀ a b : Byte, 2 ≤ a.toNat → 2 ≤ b.toNat → clmul a b ≠ poly.setWidth 15

/-- R46: `gf_mul` is commutative, associative, distributes over `gf_add`, has the zero and the one, and no zero
divisors. -/
def Obligations.GfMulLaws : Prop :=
  ∀ poly ∈ Config.admissiblePolys, ∀ a b c : Byte,
    gfMul poly a b = gfMul poly b a ∧ gfMul poly (gfMul poly a b) c = gfMul poly a (gfMul poly b c) ∧
      gfMul poly a (gfAdd b c) = gfAdd (gfMul poly a b) (gfMul poly a c) ∧
      gfMul poly a 0x00 = 0x00 ∧ gfMul poly 0x00 a = 0x00 ∧ gfMul poly a 0x01 = a ∧
      (gfMul poly a b = 0x00 → a = 0x00 ∨ b = 0x00)

/-- R47: the bit-serial formulation equals `gf_mul`. -/
def Obligations.SerialMultiplierEqualsGfMul : Prop :=
  ∀ poly : Poly9, poly.getLsbD 8 = true → ∀ a b : Byte, gfMulSerial poly a b = gfMul poly a b

/-- R49: the recursion of `gf_pow`, its value one at the exponent 255 for a nonzero base, and the reduction of
exponents modulo 255. -/
def Obligations.PowersReduceModulo255 : Prop :=
  ∀ poly ∈ Config.admissiblePolys, ∀ a : Byte, gfPow poly a 0 = 0x01 ∧
    (∀ e, gfPow poly a (e + 1) = gfMul poly (gfPow poly a e) a) ∧
    (a ≠ 0x00 → gfPow poly a 255 = 0x01 ∧ ∀ e, gfPow poly a e = gfPow poly a (e % 255))

/-- R50: `gf_inv(a)` is the unique byte whose product with `a` is one, and has no value at zero; the power form and,
for every primitive element, the table form give the same. -/
def Obligations.InverseIsUniqueAndUndefinedAtZero : Prop :=
  ∀ poly ∈ Config.admissiblePolys, gfInv poly 0x00 = none ∧
    ∀ a : Byte, a ≠ 0x00 → ∃ b, gfInv poly a = some b ∧ (∀ c, gfMul poly a c = 0x01 ↔ c = b) ∧
      b = gfPow poly a 254 ∧ gfInv poly b = some a ∧ ∀ gen, IsPrimitive poly gen → gfInvTable poly gen a = some b

/-- R52: `gf_div` is the product with the inverse and has no value at a zero divisor, whatever the dividend; the five
listed consequences. -/
def Obligations.DivisionLaws : Prop :=
  ∀ poly ∈ Config.admissiblePolys, ∀ a b : Byte, gfDiv poly a 0x00 = none ∧
    (b ≠ 0x00 →
      (∃ i, gfInv poly b = some i ∧ gfDiv poly a b = some (gfMul poly a i) ∧
        gfMul poly (gfMul poly a i) b = a ∧ gfDiv poly 0x01 b = some i) ∧
      gfDiv poly 0x00 b = some 0x00 ∧ gfDiv poly a 0x01 = some a ∧ gfDiv poly b b = some 0x01)

/-- R48: for every primitive element the table formulation of multiplication gives `gf_mul` on all pairs. -/
def Obligations.TableMultiplierEqualsGfMul : Prop :=
  ∀ poly ∈ Config.admissiblePolys, ∀ gen : Byte, IsPrimitive poly gen →
    ∀ a b : Byte, gfMulTable poly gen a b = some (gfMul poly a b)

/-! ## The field ALU's commands -/

/-- R54: `GF.ADD` answers the exclusive-or and changes nothing. -/
def Obligations.GfAddAnswersXor : Prop :=
  ∀ (a b : Byte) (s : State), s.run = .ready →
    exec (.gfAdd a b) s = .next { s with responses := s.responses ++ [.ok (a ^^^ b)] }

/-- R55: `GF.MUL` answers `gf_mul` and changes nothing. -/
def Obligations.GfMulAnswersProduct : Prop :=
  ∀ (a b : Byte) (s : State), s.run = .ready →
    exec (.gfMul a b) s = .next { s with responses := s.responses ++ [.ok (gfMul Config.poly a b)] }

/-- R56: `GF.INV` of a nonzero operand answers the byte whose product with it is one and changes nothing; of zero it is
answered `DomainError` and halts the core, and nothing else changes. -/
def Obligations.GfInvAnswersInverseOrHalts : Prop :=
  ∀ (a : Byte) (s : State), s.run = .ready →
    (a ≠ 0x00 → ∃ b, gfInv Config.poly a = some b ∧ gfMul Config.poly a b = 0x01 ∧
      exec (.gfInv a) s = .next { s with responses := s.responses ++ [.ok b] }) ∧
    (a = 0x00 → exec (.gfInv a) s =
      .next { s with run := .halted, responses := s.responses ++ [.err .domainError] })

/-- R57: `GF.DIV` by a nonzero divisor answers the product of the dividend and the divisor's inverse and changes
nothing; by zero, whatever the dividend, it is answered `DomainError` and halts the core, and nothing else changes. -/
def Obligations.GfDivAnswersQuotientOrHalts : Prop :=
  ∀ (a b : Byte) (s : State), s.run = .ready →
    (b ≠ 0x00 → ∃ i, gfMul Config.poly b i = 0x01 ∧
      exec (.gfDiv a b) s = .next { s with responses := s.responses ++ [.ok (gfMul Config.poly a i)] }) ∧
    (b = 0x00 → exec (.gfDiv a b) s =
      .next { s with run := .halted, responses := s.responses ++ [.err .domainError] })

/-! ## The polynomial evaluator -/

/-- R61: Horner's scheme computes `P(x)`; with its three consequences. -/
def Obligations.HornerIsThePolynomialValue : Prop :=
  ∀ poly ∈ Config.admissiblePolys, ∀ (c0 : Byte) (cs : List Byte) (x : Byte),
    horner poly x c0 cs = polyValue poly (c0 :: cs) x ∧ horner poly 0x00 c0 cs = c0 ∧
      horner poly 0x01 c0 cs = (c0 :: cs).foldr gfAdd 0x00 ∧
      horner poly x c0 (cs ++ [0x00]) = horner poly x c0 cs

/-- R62: `PE.CLR` sets `CLEN` to 0 and touches nothing else. -/
def Obligations.PeClrEmptiesTheCoefficients : Prop :=
  ∀ s : State, s.run = .ready →
    exec .peClr s = .next { s with coef := [], responses := s.responses ++ [.ok 0x00] }

/-- R63: `PE.PUSH` writes the coefficient at position `CLEN` and increments `CLEN`; with 255 coefficients staged it is
answered `InvalidParameters` and nothing else changes. -/
def Obligations.PePushAppendsTheCoefficient : Prop :=
  ∀ (c : Byte) (s : State), s.run = .ready →
    (s.clen < 255 → ∃ t, exec (.pePush c) s = .next t ∧
      t = { s with coef := s.coef ++ [c], responses := s.responses ++ [.ok 0x00] } ∧
      t.clen = s.clen + 1 ∧ t.coefAt s.clen = some c) ∧
    (s.clen = 255 → exec (.pePush c) s =
      .next { s with responses := s.responses ++ [.err .invalidParameters] })

/-- R64: `PE.EVAL` at a nonzero point of a non-empty buffer answers `horner` and consumes nothing; the empty buffer is
answered `InvalidParameters` whatever the point, and then the point zero `ReservedIndex`, with nothing else changed. -/
def Obligations.PeEvalAnswersThePolynomialValue : Prop :=
  ∀ (x : Byte) (s : State), s.run = .ready →
    (∀ c0 cs, s.coef = c0 :: cs → x ≠ 0x00 → exec (.peEval x) s =
      .next { s with responses := s.responses ++ [.ok (horner Config.poly x c0 cs)] }) ∧
    (s.clen = 0 → exec (.peEval x) s =
      .next { s with responses := s.responses ++ [.err .invalidParameters] }) ∧
    (s.clen ≠ 0 → x = 0x00 → exec (.peEval x) s =
      .next { s with responses := s.responses ++ [.err .reservedIndex] })

/-! ## The interpolation core -/

/-- After R66: `lagrange0` has a value exactly when the indices are distinct, and for distinct indices, one of them
zero, the value is that point's `y`. The first clause speaks of every 9-bit `POLY` and of no points too: that
`gf_inv` has a value under an inadmissible `POLY` is the model's (form (b) of R50, notes/assumptions/9.md), and so is
the value on no points, where R65 asks for one or more (notes/assumptions/10.md). -/
def Obligations.LagrangeIsDefinedForDistinctIndices : Prop :=
  ∀ (poly : Poly9) (pts : List (Byte × Byte)),
    ((∃ v, lagrange0 poly pts = some v) ↔ (pts.map Prod.fst).Nodup) ∧
    (poly ∈ Config.admissiblePolys → (pts.map Prod.fst).Nodup →
      ∀ y, (0x00, y) ∈ pts → lagrange0 poly pts = some y)

/-- R68: `lagrange0` does not depend on the order of the points. -/
def Obligations.LagrangeIgnoresTheOrder : Prop :=
  ∀ poly ∈ Config.admissiblePolys, ∀ pts pts' : List (Byte × Byte),
    pts.Perm pts' → lagrange0 poly pts = lagrange0 poly pts'

/-- After R67: (a), (b) through at least as many points of a polynomial as it has coefficients, at distinct indices,
`lagrange0` gives the constant term; (c) through fewer it still has a value, and that is not always the constant
term: two points of `t^2` show it. That a value exists on no points too, where R65 asks for one or more, is the model's
(notes/assumptions/10.md). -/
def Obligations.LagrangeRecoversTheConstantTerm : Prop :=
  ∀ poly ∈ Config.admissiblePolys,
    (∀ (c0 : Byte) (cs xs : List Byte), xs.Nodup →
      (cs.length + 1 ≤ xs.length → lagrange0 poly (xs.map fun x => (x, horner poly x c0 cs)) = some c0) ∧
      ∃ v, lagrange0 poly (xs.map fun x => (x, horner poly x c0 cs)) = some v) ∧
    lagrange0 poly [(0x01, horner poly 0x01 0x00 [0x00, 0x01]), (0x02, horner poly 0x02 0x00 [0x00, 0x01])] ≠ some 0x00

/-- R69: `IP.CLR` sets `PLEN` to 0 and touches nothing else. -/
def Obligations.IpClrEmptiesThePoints : Prop :=
  ∀ s : State, s.run = .ready →
    exec .ipClr s = .next { s with points := [], responses := s.responses ++ [.ok 0x00] }

/-- R70: `IP.PUSH` writes the pair at position `PLEN` and increments `PLEN`, with no other check; with 256 points
staged it is answered `DuplicateIndex` and nothing else changes. -/
def Obligations.IpPushAppendsThePoint : Prop :=
  ∀ (x y : Byte) (s : State), s.run = .ready →
    (s.plen < 256 → ∃ t, exec (.ipPush x y) s = .next t ∧
      t = { s with points := s.points ++ [⟨x, y⟩], responses := s.responses ++ [.ok 0x00] } ∧
      t.plen = s.plen + 1 ∧ t.pointAt s.plen = some ⟨x, y⟩) ∧
    (s.plen = 256 → exec (.ipPush x y) s =
      .next { s with responses := s.responses ++ [.err .duplicateIndex] })

/-- R71: with at least two points at distinct nonzero indices `IP.INTERP` answers `lagrange0` of them and consumes
nothing; the three faults come in their order, and only the zero index halts the core. -/
def Obligations.IpInterpAnswersTheInterpolant : Prop :=
  ∀ s : State, s.run = .ready →
    (2 ≤ s.plen → s.px.Nodup → 0x00 ∉ s.px → ∃ v, lagrange0 Config.poly (stagedPairs s) = some v ∧
      exec .ipInterp s = .next { s with responses := s.responses ++ [.ok v] }) ∧
    (s.plen < 2 → exec .ipInterp s =
      .next { s with responses := s.responses ++ [.err .insufficientShares] }) ∧
    (2 ≤ s.plen → ¬ s.px.Nodup → exec .ipInterp s =
      .next { s with responses := s.responses ++ [.err .duplicateIndex] }) ∧
    (2 ≤ s.plen → s.px.Nodup → 0x00 ∈ s.px → exec .ipInterp s =
      .next { s with run := .halted, responses := s.responses ++ [.err .domainError] })

/-! ## Rules about the whole machine -/

/-- The invariant holds at reset: both lengths legal, and the core not halted. -/
def Obligations.ResetMeetsTheInvariant : Prop := StateInv State.reset

/-- R13, R9: every step, from every state that meets it, keeps the invariant: `CLEN` and `PLEN` stay legal values of
their registers, and a HALTED core has answered `DomainError`. -/
def Obligations.StepKeepsTheInvariant : Prop :=
  ∀ s t : State, StateInv s → step s = .next t → StateInv t

/-- R9: `RUN` is one bit; a READY core becomes HALTED by a command when, and only when, the command raises
`DomainError`, and no command clears HALTED; reset does. -/
def Obligations.OnlyDomainErrorHaltsOnlyResetRecovers : Prop :=
  runBit .ready = 0 ∧ runBit .halted = 1 ∧
    (∀ (w : CommandWord) (s t : State), s.run = .ready → execWord w s = .next t →
      (t.run = .halted ↔ t.responses = s.responses ++ [.err .domainError])) ∧
    (∀ (w : CommandWord) (s t : State), s.run = .halted → execWord w s = .next t →
      t.run = .halted ∧ t.responses = s.responses ++ [.err .halted]) ∧
    ∀ s t : State, acceptEvent .reset s = .next t → t.run = .ready

/-- R86, R87: a command answered with an error-class fault changes no element of the architectural state, and one
answered with `DomainError` changes `RUN` alone, to HALTED. -/
def Obligations.FaultsChangeAtMostTheRunState : Prop :=
  ∀ (w : CommandWord) (s t : State) (e : ErrorName), execWord w s = .next t →
    t.responses = s.responses ++ [.err e] →
      (faultClass e = .error → archState t = archState s) ∧
      (faultClass e = .panic → archState t = (.halted, s.coef, s.points))

/-- R89, R90: which fault a READY core raises on which command is what the relation says; a command with no fault
answers OK and leaves the core READY. On lengths above the capacity, which no register holds (R13), the two push faults
are the model's: `commandFault` tests at least where R89 writes equals (notes/assumptions/8.md). -/
def Obligations.CommandsRaiseExactlyTheListedFaults : Prop :=
  ∀ (i : Instr) (s : State), s.run = .ready →
    ∃ t, exec i s = .next t ∧
      (∀ e, commandFault i s = some e → t.responses = s.responses ++ [.err e]) ∧
      (commandFault i s = none → t.run = .ready ∧ ∃ v, t.responses = s.responses ++ [.ok v])

/-- R8 ("written by"): over all ten commands, the port's coming events stay, one response is added, only `PE.CLR` and
`PE.PUSH` change the coefficients and only `IP.CLR` and `IP.PUSH` the points. -/
def Obligations.CommandsWriteOnlyTheirOwnState : Prop :=
  ∀ (i : Instr) (s t : State), exec i s = .next t →
    t.pending = s.pending ∧ (∃ r, t.responses = s.responses ++ [r]) ∧
      (t.coef ≠ s.coef → i = .peClr ∨ ∃ c, i = .pePush c) ∧
      (t.points ≠ s.points → i = .ipClr ∨ ∃ x y, i = .ipPush x y)

/-- R8 ("read by"): the answer of a `GF` command depends on the word alone, that of `PE.EVAL` on the coefficients, that
of `IP.INTERP` on the points: two READY cores that agree there give the same response. -/
def Obligations.ValuesDependOnlyOnTheirArguments : Prop :=
  ∀ (i : Instr) (s s' t t' : State), s.run = .ready → s'.run = .ready →
    exec i s = .next t → exec i s' = .next t' →
    ((∃ a b, i = .gfAdd a b ∨ i = .gfMul a b ∨ i = .gfInv a ∨ i = .gfDiv a b) ∨
      ((∃ x, i = .peEval x) ∧ s.coef = s'.coef) ∨ (i = .ipInterp ∧ s.points = s'.points)) →
    ∃ r, t.responses = s.responses ++ [r] ∧ t'.responses = s'.responses ++ [r]

/-- R22: the two reads are idempotent: a `PE.EVAL` or an `IP.INTERP` repeated in the state the first one left, the
core still READY, returns the same response again. -/
def Obligations.ReadingCommandsRepeat : Prop :=
  ∀ (i : Instr) (s t : State), (∃ x, i = .peEval x) ∨ i = .ipInterp → exec i s = .next t → t.run = .ready →
    ∃ r u, t.responses = s.responses ++ [r] ∧ exec i t = .next u ∧ u.responses = t.responses ++ [r]

/-! ## The host's procedures -/

/-- R74: the expansion of `SPLIT.BYTE` has `1 + k + n` commands; from a READY core, with `1 ≤ k ≤ 255` and nonzero
indices, every command responds OK and the outputs are the values `P(x_i)`; the polynomial stays staged and the points
are untouched. -/
def Obligations.SplitByteAnswersTheShareBytes : Prop :=
  ∀ (c0 : Byte) (cs xs : List Byte),
    (splitByteWords c0 cs xs).length = 1 + (cs.length + 1) + xs.length ∧
    ∀ s : State, s.run = .ready → cs.length + 1 ≤ 255 → 0x00 ∉ xs →
      ∃ t, splitByte c0 cs xs s = .next (.ok (xs.map fun x => horner Config.poly x c0 cs), t) ∧
        t.run = .ready ∧ t.coef = c0 :: cs ∧ t.points = s.points ∧ t.pending = s.pending

/-- R79: the expansion of `COMBINE.BYTE` has `2 + m` commands; from a READY core, with at least two points at distinct
nonzero indices, every command responds OK and the output is `lagrange0` of the points; on other inputs the core's own
checks answer. -/
def Obligations.CombineByteAnswersTheInterpolant : Prop :=
  ∀ pts : List (Byte × Byte), (combineByteWords pts).length = 2 + pts.length ∧
    ∀ s : State, s.run = .ready →
      (2 ≤ pts.length → (pts.map Prod.fst).Nodup → 0x00 ∉ pts.map Prod.fst →
        ∃ v t, lagrange0 Config.poly pts = some v ∧ combineByte pts s = .next (.ok v, t) ∧ t.run = .ready ∧
          t.coef = s.coef ∧ t.pending = s.pending) ∧
      (pts.length < 2 → ∃ t, combineByte pts s = .next (.error .insufficientShares, t) ∧ t.run = .ready) ∧
      (2 ≤ pts.length → ¬ (pts.map Prod.fst).Nodup →
        ∃ t, combineByte pts s = .next (.error .duplicateIndex, t)) ∧
      (2 ≤ pts.length → (pts.map Prod.fst).Nodup → 0x00 ∈ pts.map Prod.fst →
        ∃ t, combineByte pts s = .next (.error .domainError, t) ∧ t.run = .halted)

/-- R75: each of the five bad parameters is rejected with `InvalidParameters` before any command is issued; with good
ones no command of `split` faults, and it returns the `n` shares at the indices `1..n`, the byte at position `j` of the
share at `x` being the value at `x` of that position's polynomial, for every draw. -/
def Obligations.SplitFollowsItsProcedure : Prop :=
  ∀ (secret : List Byte) (n k : Nat) (draw : Nat → Nat → Byte) (s : State),
    (k = 0 ∨ n < k ∨ n = 0 ∨ 255 < n ∨ secret = [] →
      split secret n k draw s = .next (.error .invalidParameters, s)) ∧
    (s.run = .ready → secret ≠ [] → 1 ≤ k → k ≤ n → n ≤ 255 →
      ∃ t, t.run = .ready ∧ split secret n k draw s = .next (.ok ((indicesUpTo n).map fun x =>
        ⟨x, secret.zipIdx.map fun bj => horner Config.poly x bj.1 ((List.range (k - 1)).map (draw bj.2))⟩), t))

/-- R80: the three checks of `combine` in their order, each before any command is issued; then, from a READY core, the
byte at position `j` is the interpolant at zero of that position's points, and a zero index reaches the core and halts
it (unless the payloads are empty, when no command is issued). -/
def Obligations.CombineFollowsItsProcedure : Prop :=
  ∀ (shares : List Share) (s : State),
    (shares.length < 2 → combine shares s = .next (.error .insufficientShares, s)) ∧
    (2 ≤ shares.length → ¬ (shares.map Share.index).Nodup →
      combine shares s = .next (.error .duplicateIndex, s)) ∧
    (2 ≤ shares.length → (shares.map Share.index).Nodup →
      (∃ a ∈ shares, ∃ b ∈ shares, a.payload.length ≠ b.payload.length) →
      combine shares s = .next (.error .malformedShares, s)) ∧
    ∀ len : Nat, s.run = .ready → 2 ≤ shares.length → (shares.map Share.index).Nodup →
      (∀ a ∈ shares, a.payload.length = len) →
      (len = 0 → combine shares s = .next (.ok [], s)) ∧
      (0x00 ∉ shares.map Share.index → ∃ secret t, combine shares s = .next (.ok secret, t) ∧ t.run = .ready ∧
        secret.length = len ∧
        ∀ j, j < len → lagrange0 Config.poly (sharePoints shares j) = some (secret.getD j 0x00)) ∧
      (len ≠ 0 → 0x00 ∈ shares.map Share.index →
        ∃ t, combine shares s = .next (.error .domainError, t) ∧ t.run = .halted)

/-- R82 with R81: round trip and subset invariance at the driver's level: from READY cores, any set of at least `k`
and at least 2 of the shares `split` returned, at distinct indices, gives back the secret, whatever was drawn. -/
def Obligations.CombineOfSplitIsTheSecret : Prop :=
  ∀ (secret : List Byte) (n k : Nat) (draw : Nat → Nat → Byte) (s t u : State) (shares sub : List Share),
    s.run = .ready → split secret n k draw s = .next (.ok shares, t) →
    sub ⊆ shares → (sub.map Share.index).Nodup → k ≤ sub.length → 2 ≤ sub.length → u.run = .ready →
      ∃ v, combine sub u = .next (.ok secret, v) ∧ v.run = .ready

/-- U8, N19 with R82 and R81: the round trip for any assignment of distinct nonzero indices, not only `1..n`: from a
READY core the split completes with one share per index, and from any READY core any set of at least `k` and at least
2 of the shares, at distinct indices, gives back the secret, whatever was drawn. -/
def Obligations.CombineOfSplitAtAnyIndicesIsTheSecret : Prop :=
  ∀ (k : Nat) (xs secret : List Byte) (draw : Nat → Nat → Byte) (s : State),
    s.run = .ready → xs.Nodup → 0x00 ∉ xs → 1 ≤ k → k ≤ xs.length →
    ∃ shares t, splitAt k xs draw secret s = .next (.ok shares, t) ∧ t.run = .ready ∧
      shares.map Share.index = xs ∧
      ∀ (sub : List Share) (u : State), sub ⊆ shares → (sub.map Share.index).Nodup → k ≤ sub.length →
        2 ≤ sub.length → u.run = .ready → ∃ v, combine sub u = .next (.ok secret, v) ∧ v.run = .ready

/-- R77: secrecy: whatever bytes are observed at `k-1` distinct nonzero indices, for every secret byte there is exactly
one choice of the `k-1` drawn coefficients that gives them. -/
def Obligations.FewerThanKSharesFitEverySecret : Prop :=
  ∀ poly ∈ Config.admissiblePolys, ∀ (xs ys : List Byte), xs.Nodup → 0x00 ∉ xs → ys.length = xs.length →
    ∀ secret : Byte, ∃ cs : List Byte,
      (cs.length = xs.length ∧ (xs.map fun x => horner poly x secret cs) = ys) ∧
        ∀ cs' : List Byte, cs'.length = xs.length → (xs.map fun x => horner poly x secret cs') = ys → cs' = cs

/-- R77, its conclusion: when the `k-1` coefficients are uniform and independent, the bytes observed at fewer than `k`
distinct nonzero indices are uniform, whatever the secret byte is, and independent of it, whatever its law is. The
rule's own case is `m = k-1`; fewer indices are the case its first sentence speaks of. -/
def Obligations.ObservedBytesAreUniformAndIndependent : Prop :=
  ∀ poly ∈ Config.admissiblePolys, ∀ (k m : Nat) (x : Fin m → Byte), m < k → Function.Injective x →
    (∀ i, x i ≠ 0x00) →
      (∀ secret, ObservedUniform poly (k - 1) x secret) ∧ ∀ prior, ObservedIndependent poly (k - 1) x prior
end

