-- ==== Sys2Proof/Laws/Config.lean ====
section
/-! SUPPORT. All that is known of `POLY`: it is one of the 30 admissible values, and its top bit is set. -/

namespace Sys2Proof.Config

theorem poly_mem : poly ∈ admissiblePolys := List.get_mem ..

theorem top_bit_of_mem : ∀ p ∈ admissiblePolys, p.getLsbD 8 = true := by decide

/-- A fact of all 30 polynomials is a fact of the hardware's. -/
theorem poly_of_forall {P : Poly9 → Prop} (h : ∀ p ∈ admissiblePolys, P p) : P poly := h _ poly_mem

end Sys2Proof.Config
end

