-- ==== Sys2Proof/Laws/Decode.lean ====
section
/-! SUPPORT. The bits and fields of a packed word, and packing the fields of a word. -/

namespace Sys2Proof

/-- Which field a bit of a packed word comes from (spec/30_encoding.md R30). -/
theorem getLsbD_packWord (o a b : Byte) (i : Nat) : (packWord o a b).getLsbD i =
    if i < 8 then b.getLsbD i else if i < 16 then a.getLsbD (i - 8) else o.getLsbD (i - 16) := by
  have h : (packWord o a b).getLsbD i = (o ++ a ++ b : BitVec (8 + 8 + 8)).getLsbD i := rfl
  rw [h, BitVec.getLsbD_append, BitVec.getLsbD_append]
  by_cases h1 : i < 8
  · simp [h1]
  · by_cases h2 : i < 16
    · simp [h1, h2, show i - 8 < 8 by omega]
    · simp [h1, h2, show ¬ i - 8 < 8 by omega, show i - 8 - 8 = i - 16 by omega]

@[simp] theorem wordOpc_packWord (o a b : Byte) : wordOpc (packWord o a b) = o := by
  refine BitVec.eq_of_getLsbD_eq fun i hi => ?_
  simp [wordOpc, getLsbD_packWord, hi, show ¬ 16 + i < 8 by omega]

@[simp] theorem wordA_packWord (o a b : Byte) : wordA (packWord o a b) = a := by
  refine BitVec.eq_of_getLsbD_eq fun i hi => ?_
  simp [wordA, getLsbD_packWord, hi, show 8 + i < 16 by omega]

@[simp] theorem wordB_packWord (o a b : Byte) : wordB (packWord o a b) = b := by
  refine BitVec.eq_of_getLsbD_eq fun i hi => ?_
  simp [wordB, getLsbD_packWord, hi]

/-- Every word is its three fields, packed (R30). -/
theorem packWord_fields (w : CommandWord) : packWord (wordOpc w) (wordA w) (wordB w) = w := by
  refine BitVec.eq_of_getLsbD_eq fun i hi => ?_
  rw [getLsbD_packWord]
  split
  · simp [wordB, *]
  · split
    · simp [wordA, show i - 8 < 8 by omega, show 8 + (i - 8) = i by omega]
    · simp [wordOpc, show i - 16 < 8 by omega, show 16 + (i - 16) = i by omega]

/-- Anding two packed words ands their fields. -/
theorem packWord_and (o a b o' a' b' : Byte) :
    packWord o a b &&& packWord o' a' b' = packWord (o &&& o') (a &&& a') (b &&& b') := by
  refine BitVec.eq_of_getLsbD_eq fun i hi => ?_
  simp only [BitVec.getLsbD_and, getLsbD_packWord]
  split_ifs <;> rfl

/-- Two packed words are equal exactly when their fields are. -/
theorem packWord_inj (o a b o' a' b' : Byte) :
    packWord o a b = packWord o' a' b' ↔ o = o' ∧ a = a' ∧ b = b' := by
  constructor
  · intro h
    exact ⟨by simpa using congrArg wordOpc h, by simpa using congrArg wordA h, by simpa using congrArg wordB h⟩
  · rintro ⟨rfl, rfl, rfl⟩
    rfl

/-- A row matches a packed word exactly when the opcode byte is the row's and the operand fields agree with it under
its mask (R33). -/
theorem rowMatches_packWord (o a b : Byte) : ∀ r ∈ opcodeMap, rowMatches (packWord o a b) r =
    decide (o = wordOpc r.pattern ∧ a &&& wordA r.mask = wordA r.pattern ∧ b &&& wordB r.mask = wordB r.pattern) := by
  intro r hr
  have hm : wordOpc r.mask = 0xFF := by revert r; decide
  have ho : o &&& 0xFF = o := BitVec.and_allOnes
  rw [rowMatches]
  conv_lhs => rw [← packWord_fields r.mask, ← packWord_fields r.pattern, packWord_and, hm, ho]
  rw [Bool.eq_iff_iff, beq_iff_eq, decide_eq_true_eq, packWord_inj]

/-- The row found for a packed word, by its fields. -/
theorem find_packWord (o a b : Byte) : opcodeMap.find? (rowMatches (packWord o a b)) = opcodeMap.find? fun r =>
    decide (o = wordOpc r.pattern ∧ a &&& wordA r.mask = wordA r.pattern ∧ b &&& wordB r.mask = wordB r.pattern) :=
  List.find?_congr (rowMatches_packWord o a b)

end Sys2Proof
end

