-- ==== Sys2Proof/Laws/State.lean ====
section
/-! SUPPORT. One lemma per field per update of the state, and the lengths and well-formedness of an updated state. -/

namespace Sys2Proof.Machine

variable (s : State)

@[simp] theorem answer_run (r : Response) : (answer r s).run = s.run := rfl
@[simp] theorem answer_coef (r : Response) : (answer r s).coef = s.coef := rfl
@[simp] theorem answer_points (r : Response) : (answer r s).points = s.points := rfl
@[simp] theorem answer_pending (r : Response) : (answer r s).pending = s.pending := rfl
@[simp] theorem answer_responses (r : Response) : (answer r s).responses = s.responses ++ [r] := rfl

@[simp] theorem haltCore_run : (haltCore s).run = .halted := rfl
@[simp] theorem haltCore_coef : (haltCore s).coef = s.coef := rfl
@[simp] theorem haltCore_points : (haltCore s).points = s.points := rfl
@[simp] theorem haltCore_pending : (haltCore s).pending = s.pending := rfl
@[simp] theorem haltCore_responses : (haltCore s).responses = s.responses := rfl

@[simp] theorem clearCoef_run : (clearCoef s).run = s.run := rfl
@[simp] theorem clearCoef_coef : (clearCoef s).coef = [] := rfl
@[simp] theorem clearCoef_points : (clearCoef s).points = s.points := rfl
@[simp] theorem clearCoef_pending : (clearCoef s).pending = s.pending := rfl
@[simp] theorem clearCoef_responses : (clearCoef s).responses = s.responses := rfl

@[simp] theorem pushCoef_run (c : Byte) : (pushCoef c s).run = s.run := rfl
@[simp] theorem pushCoef_coef (c : Byte) : (pushCoef c s).coef = s.coef ++ [c] := rfl
@[simp] theorem pushCoef_points (c : Byte) : (pushCoef c s).points = s.points := rfl
@[simp] theorem pushCoef_pending (c : Byte) : (pushCoef c s).pending = s.pending := rfl
@[simp] theorem pushCoef_responses (c : Byte) : (pushCoef c s).responses = s.responses := rfl

@[simp] theorem clearPoints_run : (clearPoints s).run = s.run := rfl
@[simp] theorem clearPoints_coef : (clearPoints s).coef = s.coef := rfl
@[simp] theorem clearPoints_points : (clearPoints s).points = [] := rfl
@[simp] theorem clearPoints_pending : (clearPoints s).pending = s.pending := rfl
@[simp] theorem clearPoints_responses : (clearPoints s).responses = s.responses := rfl

@[simp] theorem pushPoint_run (q : Point) : (pushPoint q s).run = s.run := rfl
@[simp] theorem pushPoint_coef (q : Point) : (pushPoint q s).coef = s.coef := rfl
@[simp] theorem pushPoint_points (q : Point) : (pushPoint q s).points = s.points ++ [q] := rfl
@[simp] theorem pushPoint_pending (q : Point) : (pushPoint q s).pending = s.pending := rfl
@[simp] theorem pushPoint_responses (q : Point) : (pushPoint q s).responses = s.responses := rfl

@[simp] theorem resetCore_run : (resetCore s).run = .ready := rfl
@[simp] theorem resetCore_coef : (resetCore s).coef = [] := rfl
@[simp] theorem resetCore_points : (resetCore s).points = [] := rfl
@[simp] theorem resetCore_pending : (resetCore s).pending = s.pending := rfl
@[simp] theorem resetCore_responses : (resetCore s).responses = s.responses := rfl

@[simp] theorem presentWord_run (w : CommandWord) : (presentWord w s).run = s.run := rfl
@[simp] theorem presentWord_coef (w : CommandWord) : (presentWord w s).coef = s.coef := rfl
@[simp] theorem presentWord_points (w : CommandWord) : (presentWord w s).points = s.points := rfl
@[simp] theorem presentWord_pending (w : CommandWord) : (presentWord w s).pending = .command w :: s.pending := rfl
@[simp] theorem presentWord_responses (w : CommandWord) : (presentWord w s).responses = s.responses := rfl

@[simp] theorem answer_clen (r : Response) : (answer r s).clen = s.clen := rfl
@[simp] theorem answer_plen (r : Response) : (answer r s).plen = s.plen := rfl

@[simp] theorem haltCore_clen : (haltCore s).clen = s.clen := rfl
@[simp] theorem haltCore_plen : (haltCore s).plen = s.plen := rfl

@[simp] theorem clearCoef_clen : (clearCoef s).clen = 0 := rfl
@[simp] theorem clearCoef_plen : (clearCoef s).plen = s.plen := rfl

@[simp] theorem pushCoef_clen (c : Byte) : (pushCoef c s).clen = s.clen + 1 := by simp [State.clen]
@[simp] theorem pushCoef_plen (c : Byte) : (pushCoef c s).plen = s.plen := rfl

@[simp] theorem clearPoints_clen : (clearPoints s).clen = s.clen := rfl
@[simp] theorem clearPoints_plen : (clearPoints s).plen = 0 := rfl

@[simp] theorem pushPoint_clen (q : Point) : (pushPoint q s).clen = s.clen := rfl
@[simp] theorem pushPoint_plen (q : Point) : (pushPoint q s).plen = s.plen + 1 := by simp [State.plen]

@[simp] theorem resetCore_clen : (resetCore s).clen = 0 := rfl
@[simp] theorem resetCore_plen : (resetCore s).plen = 0 := rfl

@[simp] theorem presentWord_clen (w : CommandWord) : (presentWord w s).clen = s.clen := rfl
@[simp] theorem presentWord_plen (w : CommandWord) : (presentWord w s).plen = s.plen := rfl

theorem wf_iff : s.wf = true ↔ s.clen ≤ 255 ∧ s.plen ≤ 256 := by
  simp only [State.wf, Bool.and_eq_true, decide_eq_true_eq]; rfl

@[simp] theorem answer_wf (r : Response) : (answer r s).wf = s.wf := rfl

@[simp] theorem haltCore_wf : (haltCore s).wf = s.wf := rfl

@[simp] theorem clearCoef_wf (h : s.wf = true) : (clearCoef s).wf = true := by
  simp only [wf_iff] at h ⊢; exact ⟨by simp, h.2⟩

@[simp] theorem clearPoints_wf (h : s.wf = true) : (clearPoints s).wf = true := by
  simp only [wf_iff] at h ⊢; exact ⟨h.1, by simp⟩

@[simp] theorem resetCore_wf : (resetCore s).wf = true := rfl

@[simp] theorem presentWord_wf (w : CommandWord) : (presentWord w s).wf = s.wf := rfl

/-- A push keeps the lengths legal where the buffer is not full (spec/10_state.md R13). -/
theorem pushCoef_wf (c : Byte) (h : s.wf = true) (hc : s.clen < Config.coefCapacity) : (pushCoef c s).wf = true := by
  simp [wf_iff, Config.coefCapacity] at h hc ⊢; omega

/-- The same for a pair pushed to the point buffer (spec/10_state.md R13). -/
theorem pushPoint_wf (q : Point) (h : s.wf = true) (hp : s.plen < Config.pointCapacity) :
    (pushPoint q s).wf = true := by
  simp [wf_iff, Config.pointCapacity] at h hp ⊢; omega

/-- The lengths fit their registers: `CLEN` reads as the 8-bit register of R13, `PLEN` as the 9-bit one. -/
theorem lengths_of_wf (h : s.wf = true) : s.clenReg.toNat = s.clen ∧ s.plenReg.toNat = s.plen := by
  simp only [wf_iff] at h
  simp only [State.clenReg, State.plenReg, BitVec.toNat_ofNat]
  omega

theorem coefAt_eq_none (j : Nat) (h : s.clen ≤ j) : s.coefAt j = none := List.getElem?_eq_none h

theorem pointAt_eq_none (i : Nat) (h : s.plen ≤ i) : s.pointAt i = none := List.getElem?_eq_none h

end Sys2Proof.Machine
end

