-- ==== Sys2Proof/Laws/Ops.lean ====
section
/-! SUPPORT. What each shared operation can do, said once. -/

namespace Sys2Proof.Machine

variable {s t : State}

@[simp] theorem respondOk_eq (v : Byte) (s : State) : respondOk v s = .next (answer (.ok v) s) := rfl

/-- An error-class fault is an answer and nothing else (spec/60_exceptions.md R86). -/
theorem raise_of_ne (s : State) {e : ErrorName} (h : e ≠ .domainError) : raise e s = .next (answer (.err e) s) := by
  cases e <;> first | rfl | exact absurd rfl h

/-- `DomainError` also halts the core (R87). -/
theorem raise_domainError (s : State) : raise .domainError s = .next (answer (.err .domainError) (haltCore s)) := rfl

/-- A raise always answers a next state: the fault's response, with `RUN` changed for `DomainError` alone. -/
theorem raise_cases {e : ErrorName} (h : raise e s = .next t) :
    (e ≠ .domainError ∧ t = answer (.err e) s) ∨ (e = .domainError ∧ t = answer (.err e) (haltCore s)) := by
  by_cases he : e = .domainError
  · subst he; cases h; exact .inr ⟨rfl, rfl⟩
  · rw [raise_of_ne s he] at h; cases h; exact .inl ⟨he, rfl⟩

theorem whenReady_of_ready {k : Host.Outcome State Fault Refusal} (h : s.run = .ready) : whenReady k s = k := by
  simp [whenReady, h]

/-- In HALTED the answer is `Halted`, whatever the command (R88). -/
theorem whenReady_of_halted {k : Host.Outcome State Fault Refusal} (h : s.run = .halted) :
    whenReady k s = .next (answer (.err .halted) s) := by
  simp [whenReady, h, raise_of_ne]

/-- The READY test either answers `Halted` or goes on. -/
theorem whenReady_cases {k : Host.Outcome State Fault Refusal} (h : whenReady k s = .next t) :
    (s.run = .halted ∧ t = answer (.err .halted) s) ∨ (s.run = .ready ∧ k = .next t) := by
  cases hr : s.run with
  | ready => rw [whenReady_of_ready hr] at h; exact .inr ⟨rfl, h⟩
  | halted => rw [whenReady_of_halted hr] at h; cases h; exact .inl ⟨rfl, rfl⟩

@[simp] theorem respondPartial_none (s : State) : respondPartial none s = raise .domainError s := rfl

@[simp] theorem respondPartial_some (v : Byte) (s : State) : respondPartial (some v) s = .next (answer (.ok v) s) := rfl

@[simp] theorem takeEvent_nil (h : s.pending = []) : takeEvent s = none := by simp [takeEvent, h]

/-- Taking an event takes the first one and leaves the rest. -/
theorem takeEvent_cons {e : HostEvent} {rest : List HostEvent} (h : s.pending = e :: rest) :
    takeEvent s = some (e, { s with pending := rest }) := by simp [takeEvent, h]

@[simp] theorem andThen_next {α β : Type} (a : α) (k : α → Host.Outcome β Fault Refusal) :
    andThen (.next a) k = k a := rfl

/-- A bind that answers a next state went through a next state of its first part. -/
theorem andThen_eq_next {α β : Type} {o : Host.Outcome α Fault Refusal} {k : α → Host.Outcome β Fault Refusal}
    {b : β} (h : andThen o k = .next b) : ∃ a, o = .next a ∧ k a = .next b := by
  cases o with
  | next a => exact ⟨a, rfl, h⟩
  | fault f => cases h
  | refused r => cases h

theorem hasDuplicate_eq_true (xs : List Byte) : hasDuplicate xs = true ↔ ¬ xs.Nodup := by
  induction xs with
  | nil => simp [hasDuplicate]
  | cons x xs ih => simp [hasDuplicate, ih]; tauto

theorem hasDuplicate_eq_false (xs : List Byte) : hasDuplicate xs = false ↔ xs.Nodup := by
  simpa using not_congr (hasDuplicate_eq_true xs)

theorem hasZero_eq_true (xs : List Byte) : hasZero xs = true ↔ 0x00 ∈ xs := by simp [hasZero]

/-- The observed bytes as a list are the row of bytes `SPLIT.BYTE` gives for the same coefficients and indices. -/
theorem ofFn_observed {d m : Nat} (poly : Poly9) (x : Fin m → Byte) (secret : Byte) (c : Fin d → Byte) :
    List.ofFn (observed poly x secret c) = (List.ofFn x).map fun xi => horner poly xi secret (List.ofFn c) := by
  rw [List.map_ofFn]
  rfl

end Sys2Proof.Machine
end

