-- ==== Sys2Proof/Laws/Exec.lean ====
section
/-! SUPPORT. What a command, a transaction and a step can do, said once: the provers cite these instead of unfolding
`exec`. -/

namespace Sys2Proof.Machine

variable {s t : State}

/-- What the READY core may do on one command: it answers the response and the state with one update `u` of it. -/
inductive Reaction (i : Instr) (s : State) : Response → State → Prop where
  /-- A value, with nothing changed. -/
  | value (v : Byte) : Reaction i s (.ok v) s
  /-- An error-class fault, with nothing changed. -/
  | error (e : ErrorName) (he : e ≠ .domainError) (hh : e ≠ .halted) : Reaction i s (.err e) s
  /-- The panic-class fault, with the core halted. -/
  | panic : Reaction i s (.err .domainError) (haltCore s)
  | clearedCoef (hi : i = .peClr) : Reaction i s (.ok 0x00) (clearCoef s)
  | pushedCoef (c : Byte) (hi : i = .pePush c) (hc : s.clen < Config.coefCapacity) :
      Reaction i s (.ok 0x00) (pushCoef c s)
  | clearedPoints (hi : i = .ipClr) : Reaction i s (.ok 0x00) (clearPoints s)
  | pushedPoint (x y : Byte) (hi : i = .ipPush x y) (hp : s.plen < Config.pointCapacity) :
      Reaction i s (.ok 0x00) (pushPoint ⟨x, y⟩ s)

theorem reaction_raise {i : Instr} {e : ErrorName} (hh : e ≠ .halted) :
    ∃ r u, raise e s = .next (answer r u) ∧ Reaction i s r u := by
  by_cases he : e = .domainError
  · subst he; exact ⟨_, _, raise_domainError s, .panic⟩
  · exact ⟨_, _, raise_of_ne s he, .error e he hh⟩

theorem reaction_respondPartial {i : Instr} (v : Option Byte) :
    ∃ r u, respondPartial v s = .next (answer r u) ∧ Reaction i s r u := by
  cases v with
  | none => exact reaction_raise (e := .domainError) nofun
  | some v => exact ⟨_, _, rfl, .value v⟩

/-- Every command of a READY core answers a next state, reached by exactly one response after one `Reaction`. -/
theorem exec_of_ready (i : Instr) (h : s.run = .ready) :
    ∃ r u, exec i s = .next (answer r u) ∧ Reaction i s r u := by
  cases i with
  | gfAdd a b => exact ⟨_, _, whenReady_of_ready h, .value _⟩
  | gfMul a b => exact ⟨_, _, whenReady_of_ready h, .value _⟩
  | gfInv a => simpa only [exec, execGfInv, whenReady_of_ready h] using reaction_respondPartial _
  | gfDiv a b => simpa only [exec, execGfDiv, whenReady_of_ready h] using reaction_respondPartial _
  | peClr => exact ⟨_, _, whenReady_of_ready h, .clearedCoef rfl⟩
  | pePush c =>
    simp only [exec, execPePush, whenReady_of_ready h]
    split
    · exact reaction_raise nofun
    · exact ⟨_, _, rfl, .pushedCoef c rfl (by omega)⟩
  | peEval x =>
    simp only [exec, execPeEval, whenReady_of_ready h]
    split
    · exact reaction_raise nofun
    · split
      · exact reaction_raise nofun
      · exact ⟨_, _, rfl, .value _⟩
  | ipClr => exact ⟨_, _, whenReady_of_ready h, .clearedPoints rfl⟩
  | ipPush x y =>
    simp only [exec, execIpPush, whenReady_of_ready h]
    split
    · exact reaction_raise nofun
    · exact ⟨_, _, rfl, .pushedPoint x y rfl (by omega)⟩
  | ipInterp =>
    simp only [exec, execIpInterp, whenReady_of_ready h]
    split
    · exact reaction_raise nofun
    · split
      · exact reaction_raise nofun
      · split
        · exact reaction_raise nofun
        · exact reaction_respondPartial _

/-- The transaction of a READY core on a legal word is the instruction's own. -/
theorem execWord_of_decode {w : CommandWord} {i : Instr} (hr : s.run = .ready) (hd : decode w = .ok i) :
    execWord w s = exec i s := by
  simp [execWord, whenReady_of_ready hr, hd]

end Sys2Proof.Machine
end

