-- ==== Sys2Proof/Laws/PerInstr.lean ====
section
/-! SUPPORT. Facts stated for every instruction, one lemma per constructor. -/

namespace Sys2Proof.Laws.LegalEncoding

/-- The encoder gives a word that the prose of spec/30_encoding.md R35 calls legal. -/
def Statement (i : Instr) : Prop := (wordFields (encode i)).wellFormed = true

theorem gfAdd (a b : Byte) : Statement (.gfAdd a b) := by
  simp [Statement, wordFields, encode, Fields.wellFormed, Fields.opcodeAssigned, Fields.unusedBZero,
    Fields.unusedAZero, assignedOpcodes, opcodesWithoutB, opcodesWithoutA]

theorem gfMul (a b : Byte) : Statement (.gfMul a b) := by
  simp [Statement, wordFields, encode, Fields.wellFormed, Fields.opcodeAssigned, Fields.unusedBZero,
    Fields.unusedAZero, assignedOpcodes, opcodesWithoutB, opcodesWithoutA]

theorem gfInv (a : Byte) : Statement (.gfInv a) := by
  simp [Statement, wordFields, encode, Fields.wellFormed, Fields.opcodeAssigned, Fields.unusedBZero,
    Fields.unusedAZero, assignedOpcodes, opcodesWithoutB, opcodesWithoutA]

theorem gfDiv (a b : Byte) : Statement (.gfDiv a b) := by
  simp [Statement, wordFields, encode, Fields.wellFormed, Fields.opcodeAssigned, Fields.unusedBZero,
    Fields.unusedAZero, assignedOpcodes, opcodesWithoutB, opcodesWithoutA]

theorem peClr : Statement .peClr := rfl

theorem pePush (c : Byte) : Statement (.pePush c) := by
  simp [Statement, wordFields, encode, Fields.wellFormed, Fields.opcodeAssigned, Fields.unusedBZero,
    Fields.unusedAZero, assignedOpcodes, opcodesWithoutB, opcodesWithoutA]

theorem peEval (x : Byte) : Statement (.peEval x) := by
  simp [Statement, wordFields, encode, Fields.wellFormed, Fields.opcodeAssigned, Fields.unusedBZero,
    Fields.unusedAZero, assignedOpcodes, opcodesWithoutB, opcodesWithoutA]

theorem ipClr : Statement .ipClr := rfl

theorem ipPush (x y : Byte) : Statement (.ipPush x y) := by
  simp [Statement, wordFields, encode, Fields.wellFormed, Fields.opcodeAssigned, Fields.unusedBZero,
    Fields.unusedAZero, assignedOpcodes, opcodesWithoutB, opcodesWithoutA]

theorem ipInterp : Statement .ipInterp := rfl

end Sys2Proof.Laws.LegalEncoding
end

