-- ==== Sys2Proof/Tests/Slice0.lean ====
section
/-! SUPPORT. Tests: expected results are taken from spec/ (the rules' worked examples and spec/95_test_vectors.md,
each named in its comment), and one witness for the hypotheses of each statement that has some. -/

namespace Sys2Proof.Tests

open Sys2Proof.Machine

/-- A small state with nothing pending and nothing answered. -/
def demo (run : RunState) (coef : List Byte) (points : List Point) : State :=
  { run := run, coef := coef, points := points, pending := [], responses := [] }

/-- The polynomial of source example S9 staged (95_test_vectors section 3.1). -/
def demoCoef : State := demo .ready [0x41, 0x1D, 0xA7] []

/-- The three points of R71's example staged. -/
def demoPoints : State := demo .ready [] [⟨0x02, 0xD1⟩, ⟨0x04, 0xAB⟩, ⟨0x05, 0x11⟩]

/-! ## WellFormed: an ill-formed term for each check (R35) -/

theorem test_wf_unassigned_opcode : Fields.opcodeAssigned ⟨0x05, 0x00, 0x00⟩ = false := by decide

theorem test_wf_nonzero_b : Fields.unusedBZero ⟨0x03, 0x53, 0x01⟩ = false := by decide

theorem test_wf_nonzero_a : Fields.unusedAZero ⟨0x10, 0x01, 0x00⟩ = false := by decide

/-- The whole check refuses all three and accepts a legal word. -/
theorem test_wf_whole :
    Fields.wellFormed ⟨0x05, 0x00, 0x00⟩ = false ∧ Fields.wellFormed ⟨0x03, 0x53, 0x01⟩ = false ∧
      Fields.wellFormed ⟨0x10, 0x01, 0x00⟩ = false ∧ Fields.wellFormed ⟨0x03, 0x53, 0x00⟩ = true := by decide

/-! ## Decode: each row's word written out bit by bit from the encoding column of R33 -/

theorem test_decode_gfAdd : decode 0b000000010101011110000011 = .ok (.gfAdd 0x57 0x83) := rfl

theorem test_decode_gfMul : decode 0b000000100101011110000011 = .ok (.gfMul 0x57 0x83) := rfl

theorem test_decode_gfInv : decode 0b000000110101001100000000 = .ok (.gfInv 0x53) := rfl

theorem test_decode_gfDiv : decode 0b000001000101011110000011 = .ok (.gfDiv 0x57 0x83) := rfl

theorem test_decode_peClr : decode 0b000100000000000000000000 = .ok .peClr := rfl

theorem test_decode_pePush : decode 0b000100010100000100000000 = .ok (.pePush 0x41) := rfl

theorem test_decode_peEval : decode 0b000100100000001000000000 = .ok (.peEval 0x02) := rfl

theorem test_decode_ipClr : decode 0b001000000000000000000000 = .ok .ipClr := rfl

theorem test_decode_ipPush : decode 0b001000010000001011010001 = .ok (.ipPush 0x02 0xD1) := rfl

theorem test_decode_ipInterp : decode 0b001000100000000000000000 = .ok .ipInterp := rfl

/-- Illegal words of 95_test_vectors section 5. -/
theorem test_decode_illegal :
    [0x000000, 0xFFFFFF, 0x050000, 0x130000, 0x230000, 0x030001, 0x220100, 0x200001, 0x120001].all
      (fun w => (decode w).toOption.isNone) = true := by decide

/-- The encodings of R36's examples. -/
theorem test_encode : encode (.gfMul 0x57 0x83) = 0x025783 ∧ encode (.gfInv 0x53) = 0x035300 ∧
    encode (.pePush 0x41) = 0x114100 ∧ encode (.ipPush 0x02 0xD1) = 0x2102D1 ∧ encode .ipInterp = 0x220000 := by decide

/-- Byte order `OPC, A, B` (R20). -/
theorem test_word_bytes : wordBytes 0x2102D1 = [0x21, 0x02, 0xD1] ∧ wordOfBytes [0x21, 0x02, 0xD1] = some 0x2102D1 ∧
    wordOfBytes [0x21, 0x02] = none := by decide

theorem test_decodeTableWord : decodeTableWord 24 0x010000 = some (.gfAdd 0x00 0x00) ∧ decodeTableWord 24 0x050000 = none ∧
    decodeTableWord 32 0x010000 = none := by decide

/-! ## The field (95_test_vectors section 2) -/

/-- R55's worked example: `clmul(0x57, 0x83) = 0x2B79`, and the product under two polynomials. -/
theorem test_gfMul_worked : clmul 0x57 0x83 = 0x2B79 ∧ gfMul 0x11B 0x57 0x83 = 0xC1 ∧ gfMul 0x11D 0x57 0x83 = 0x31 := by
  decide

/-- `t^14` reduced, and the largest operands, under two polynomials (section 2.2). -/
theorem test_gfMul_degree14 : gfMul 0x11B 0x80 0x80 = 0x9A ∧ gfMul 0x11D 0x80 0x80 = 0x13 ∧
    gfMul 0x11B 0xFF 0xFF = 0x13 ∧ gfMul 0x11D 0xFF 0xFF = 0xE2 := by decide

/-- `gf_mul(0x80, 0x02) = POLY[7:0]` for every admissible `POLY` (R44). -/
theorem test_gfMul_tells_poly : ∀ p ∈ Config.admissiblePolys, gfMul p 0x80 0x02 = p.setWidth 8 := by decide +kernel

/-- The bit-serial form on R55's example (R47). -/
theorem test_gfMulSerial : gfMulSerial 0x11B 0x57 0x83 = 0xC1 ∧ gfMulSerial 0x11D 0x57 0x83 = 0x31 := by decide

set_option maxRecDepth 100000 in
/-- R56's example, under two polynomials (section 2.3). -/
theorem test_gfInv : gfInv 0x11B 0x53 = some 0xCA ∧ gfInv 0x11D 0x53 = some 0x8C ∧ gfInv 0x11B 0x00 = none := by
  decide +kernel

set_option maxRecDepth 100000 in
/-- R57's example, under two polynomials (section 2.4). -/
theorem test_gfDiv : gfDiv 0x11B 0x57 0x83 = some 0x38 ∧ gfDiv 0x11D 0x57 0x83 = some 0x8D ∧
    gfDiv 0x11B 0x00 0x00 = none := by decide +kernel

/-- R64's example and the second column of section 3.1. -/
theorem test_horner : horner 0x11B 0x02 0x41 [0x1D, 0xA7] = 0xD1 ∧ horner 0x11D 0x02 0x41 [0x1D, 0xA7] = 0xDD ∧
    horner 0x11B 0xFF 0x41 [0x1D, 0xA7] = 0xD3 := by decide +kernel

/-- The power sum on R64's example (R59, R61). -/
theorem test_polyValue : polyValue 0x11B [0x41, 0x1D, 0xA7] 0x02 = 0xD1 := by decide +kernel

set_option maxRecDepth 100000 in
/-- R71's example. -/
theorem test_lagrange0_three_points : lagrange0 0x11B [(0x02, 0xD1), (0x04, 0xAB), (0x05, 0x11)] = some 0x41 := by
  decide +kernel

set_option maxRecDepth 100000 in
/-- Two points only (section 4.2): a wrong, non-error value, under two polynomials; and a repeated index (R66). -/
theorem test_lagrange0_two_points : lagrange0 0x11B [(0x02, 0xD1), (0x04, 0xAB)] = some 0x0E ∧
    lagrange0 0x11D [(0x02, 0xDD), (0x04, 0x97)] = some 0x10 ∧ lagrange0 0x11B [(0x02, 0x05), (0x02, 0x09)] = none := by
  decide +kernel

/-- A row of the exponent table and an entry of the logarithm table (section 2.6). -/
theorem test_tables : (List.range 16).map (gfExp 0x11B 0x03) =
    [0x01, 0x03, 0x05, 0x0F, 0x11, 0x33, 0x55, 0xFF, 0x1A, 0x2E, 0x72, 0x96, 0xA1, 0xF8, 0x13, 0x35] ∧
    gfLog 0x11B 0x03 0x33 = some 5 := by decide +kernel

/-! ## One command at a time -/

/-- R54's example. -/
theorem test_exec_gfAdd : exec (.gfAdd 0x57 0x83) demoCoef = .next { demoCoef with responses := [.ok 0xD4] } := rfl

/-- `GF.MUL 0x0F, 0x0F` gives `0x55` under every `POLY` (R55). -/
theorem test_exec_gfMul : exec (.gfMul 0x0F 0x0F) demoCoef = .next { demoCoef with responses := [.ok 0x55] } := by
  have h : gfMul Config.poly 0x0F 0x0F = 0x55 := Config.poly_of_forall (P := fun p => gfMul p 0x0F 0x0F = 0x55) (by decide +kernel)
  have e : exec (.gfMul 0x0F 0x0F) demoCoef = .next { demoCoef with responses := [.ok (gfMul Config.poly 0x0F 0x0F)] } := rfl
  rw [e, h]

/-- P5, step 3: `GF.INV 0` halts and leaves the buffers. -/
theorem test_exec_gfInv_zero :
    exec (.gfInv 0x00) demoCoef = .next { demoCoef with run := .halted, responses := [.err .domainError] } := rfl

/-- `GF.DIV 0, 0` faults too (R57). -/
theorem test_exec_gfDiv_zero :
    exec (.gfDiv 0x00 0x00) demoCoef = .next { demoCoef with run := .halted, responses := [.err .domainError] } := rfl

/-- Section 3.1, row 19. -/
theorem test_exec_peClr : exec .peClr demoCoef = .next { demoCoef with coef := [], responses := [.ok 0x00] } := rfl

/-- Section 3.1, row 17: a zero leading coefficient is pushed. -/
theorem test_exec_pePush :
    exec (.pePush 0x00) demoCoef =
      .next { demoCoef with coef := [0x41, 0x1D, 0xA7, 0x00], responses := [.ok 0x00] } := rfl

set_option maxRecDepth 10000 in
/-- Section 3.2: the 256th push. -/
theorem test_exec_pePush_full : exec (.pePush 0x09) (demo .ready (List.replicate 255 0x01) []) =
    .next { demo .ready (List.replicate 255 0x01) [] with responses := [.err .invalidParameters] } := by
  rfl

/-- Section 3.1, rows 4 and 5: one coefficient gives its value at every nonzero point. -/
theorem test_exec_peEval_constant :
    exec (.peEval 0xFF) (demo .ready [0x41] []) = .next { demo .ready [0x41] [] with responses := [.ok 0x41] } := rfl

/-- Section 3.1, rows 1 and 6: the two faults in their order. -/
theorem test_exec_peEval_faults :
    exec (.peEval 0x00) (demo .ready [] []) = .next { demo .ready [] [] with responses := [.err .invalidParameters] } ∧
    exec (.peEval 0x00) demoCoef = .next { demoCoef with responses := [.err .reservedIndex] } := ⟨rfl, rfl⟩

/-- Section 4.1, row 7. -/
theorem test_exec_ipClr : exec .ipClr demoPoints = .next { demoPoints with points := [], responses := [.ok 0x00] } := rfl

/-- R70's example. -/
theorem test_exec_ipPush : exec (.ipPush 0x02 0xD1) (demo .ready [] []) =
    .next { demo .ready [] [⟨0x02, 0xD1⟩] with responses := [.ok 0x00] } := rfl

set_option maxRecDepth 10000 in
/-- Section 4.3: the 257th push. -/
theorem test_exec_ipPush_full : exec (.ipPush 0x07 0x07) (demo .ready [] (List.replicate 256 ⟨0x01, 0x5A⟩)) =
    .next { demo .ready [] (List.replicate 256 ⟨0x01, 0x5A⟩) with responses := [.err .duplicateIndex] } := by
  rfl

/-- P4: a duplicate index; and section 4.3, duplicate before zero index. -/
theorem test_exec_ipInterp_duplicate :
    exec .ipInterp (demo .ready [] [⟨0x02, 0x05⟩, ⟨0x02, 0x09⟩]) =
      .next { demo .ready [] [⟨0x02, 0x05⟩, ⟨0x02, 0x09⟩] with responses := [.err .duplicateIndex] } ∧
    exec .ipInterp (demo .ready [] [⟨0x00, 0x01⟩, ⟨0x00, 0x02⟩]) =
      .next { demo .ready [] [⟨0x00, 0x01⟩, ⟨0x00, 0x02⟩] with responses := [.err .duplicateIndex] } := ⟨rfl, rfl⟩

/-- P6, step 5: a zero index halts; and section 4.3, too few points before zero index. -/
theorem test_exec_ipInterp_zero :
    exec .ipInterp (demo .ready [] [⟨0x00, 0x99⟩, ⟨0x01, 0xFB⟩]) =
      .next { demo .halted [] [⟨0x00, 0x99⟩, ⟨0x01, 0xFB⟩] with responses := [.err .domainError] } ∧
    exec .ipInterp (demo .ready [] [⟨0x00, 0x41⟩]) =
      .next { demo .ready [] [⟨0x00, 0x41⟩] with responses := [.err .insufficientShares] } := ⟨rfl, rfl⟩

/-- R71's example: `IP.INTERP` answers OK and keeps the points. -/
theorem test_exec_ipInterp_ok :
    ∃ v, exec .ipInterp demoPoints = .next { demoPoints with responses := [.ok v] } := ⟨_, rfl⟩

/-- Section 5: in HALTED a legal and an illegal word are answered `Halted`. -/
theorem test_halted_words :
    execWord 0x010102 (demo .halted [0x41] []) = .next { demo .halted [0x41] [] with responses := [.err .halted] } ∧
    execWord 0x000000 (demo .halted [0x41] []) = .next { demo .halted [0x41] [] with responses := [.err .halted] } :=
  ⟨rfl, rfl⟩

/-- Section 5: `0x030001`, illegal and with `A = 0`: `IllegalCommand` wins over `DomainError`, and no halt. -/
theorem test_illegal_before_domain :
    execWord 0x030001 State.reset = .next { State.reset with responses := [.err .illegalCommand] } := rfl

/-- P5, steps 6 and 7: reset recovers a HALTED core. -/
theorem test_reset_recovers :
    Host.Core.run core 2 { demo .halted [0x41] [] with pending := [.reset, .command 0x010102] } =
      .next { demo .ready [] [] with responses := [.ok 0x03] } := rfl

/-- The word placed is the word run, from the reset state. -/
theorem test_withFetchWord :
    step (State.reset.withFetchWord 24 0x015783) = .next { State.reset with responses := [.ok 0xD4] } := rfl

/-- Response words of the examples: R54, R56, R63. -/
theorem test_respWord : respWord (.ok 0xD4) = 0x00D4 ∧ respWord (.err .domainError) = 0x0500 ∧
    respWord (.err .invalidParameters) = 0x0100 := by decide

/-! ## The assembler (R36) -/

theorem test_assemble :
    assembleLine ['I', 'P', '.', 'P', 'U', 'S', 'H', ' ', '2', ',', '0', 'x', 'D', '1', ' ', ';', ' ', 'c'] = .ok (some 0x2102D1) ∧
    assembleLine ['P', 'E', '.', 'P', 'U', 'S', 'H', ' ', '2', '5', '6'] = .error .operandOutOfRange ∧
    assembleLine ['G', 'F', '.', 'A', 'D', 'D', ' ', '1'] = .error .wrongOperandCount ∧
    assembleLine ['I', 'P', '.', 'C', 'L', 'R', ' ', '1'] = .error .wrongOperandCount ∧
    assembleLine ['P', 'E', '.', 'P', 'U', 'S', 'H', ' ', 'D', '1'] = .error .notANumber := ⟨rfl, rfl, rfl, rfl, rfl⟩

/-- What log entries 19 and 20 choose: an indented line, and the operand's error before the count's. -/
theorem test_assemble_choices :
    assembleLine [' ', 'P', 'E', '.', 'C', 'L', 'R'] = .ok (some 0x100000) ∧
    assembleLine ['G', 'F', '.', 'I', 'N', 'V', '0', 'x', '5', '3'] = .error .unknownMnemonic ∧
    assembleLine ['G', 'F', '.', 'A', 'D', 'D', ' ', '3', '0', '0'] = .error .operandOutOfRange ∧
    assembleLine ['G', 'F', '.', 'A', 'D', 'D', ' ', '1', ','] = .error .notANumber := ⟨rfl, rfl, rfl, rfl⟩

/-- A decimal number, a hexadecimal one, and the digits that are none to their base. -/
theorem test_numberValue : numberValue ['2', '5', '5'] = some 255 ∧ numberValue ['0', 'x', 'D', '1'] = some 0xD1 ∧
    numberValue ['0', 'x', 'd', '1'] = some 0xD1 ∧ numberValue ['1', 'A'] = none ∧ numberValue ['0', 'x', 'G'] = none ∧
    numberValue ['0', 'x'] = none := by decide

/-! ## The host's procedures (95_test_vectors sections 1 and 7) -/

/-- `COMBINE.BYTE` of the one point `(1, 0xFB)`: `InsufficientShares` (R79). -/
theorem test_combineByte_one :
    ∃ t, combineByte [(0x01, 0xFB)] State.reset = .next (.error .insufficientShares, t) := ⟨_, rfl⟩

/-- The source's parameter rejections (S10). -/
theorem test_split_rejects (draw : Nat → Nat → Byte) :
    split [0x01] 3 4 draw State.reset = .next (.error .invalidParameters, State.reset) ∧
    split [] 5 3 draw State.reset = .next (.error .invalidParameters, State.reset) := ⟨rfl, rfl⟩

/-- The source's duplicate rejection (S8), and the driver-level rejections of section 7. -/
theorem test_combine_rejects :
    combine [⟨0x02, [0x05]⟩, ⟨0x02, [0x09]⟩] State.reset = .next (.error .duplicateIndex, State.reset) ∧
    combine [⟨0x01, [0x41, 0x42]⟩, ⟨0x02, [0x43]⟩] State.reset = .next (.error .malformedShares, State.reset) ∧
    combine [⟨0x01, [0x41]⟩] State.reset = .next (.error .insufficientShares, State.reset) ∧
    combine [⟨0x02, [0x05]⟩, ⟨0x02, [0x09, 0x09]⟩] State.reset = .next (.error .duplicateIndex, State.reset) :=
  ⟨rfl, rfl, rfl, rfl⟩

/-- P2: the nine words of `SPLIT.BYTE` for the source's boundary scenario. -/
theorem test_splitByte_words : splitByteWords 0x41 [0x1D, 0xA7] [0x01, 0x02, 0x03, 0x04, 0x05] =
    [0x100000, 0x114100, 0x111D00, 0x11A700, 0x120100, 0x120200, 0x120300, 0x120400, 0x120500] := by decide

/-- P3: the five words of `COMBINE.BYTE`. -/
theorem test_combineByte_words : combineByteWords [(0x02, 0xD1), (0x04, 0xAB), (0x05, 0x11)] =
    [0x200000, 0x2102D1, 0x2104AB, 0x210511, 0x220000] := by decide

/-- P2's shape on two indices: every command responds OK and the outputs are the values at the indices. -/
theorem test_splitByte : ∃ t, splitByte 0x41 [0x1D, 0xA7] [0x01, 0x02] State.reset = .next
    (.ok [horner Config.poly 0x01 0x41 [0x1D, 0xA7], horner Config.poly 0x02 0x41 [0x1D, 0xA7]], t) := ⟨_, rfl⟩

/-! ## Witnesses: the hypotheses of each statement can be met -/

theorem witness_ResetEventLeavesReadyEmpty :
    ({ demo .halted [0x41] [⟨0x01, 0x02⟩] with pending := [.reset] } : State).pending = .reset :: [] := rfl

theorem witness_NothingHappensBetweenCommands : demoCoef.pending = [] := rfl

theorem witness_StepExecutesTheDecodedCommand :
    ({ demoCoef with pending := [.command 0x120200] } : State).pending = .command 0x120200 :: [] ∧
      ({ demoCoef with pending := [.command 0x120200] } : State).run = .ready ∧
      decode 0x120200 = .ok (.peEval 0x02) := ⟨rfl, rfl, rfl⟩

theorem witness_StepExecutesTheDecodedCommand_illegal :
    ({ demoCoef with pending := [.command 0x120201] } : State).run = .ready ∧
      decode 0x120201 = .error (.unusedFieldNonzero 0x12 0x02 0x01) := ⟨rfl, rfl⟩

theorem witness_StepExecutesTheDecodedCommand_halted :
    ({ demo .halted [] [] with pending := [.command 0x000000] } : State).run = .halted := rfl

/-- Also for HaltedCoreExecutesNoCommand and RunFromHaltedOnlyAnswersHalted. -/
theorem witness_HaltedCoreAnswersHalted : (demo .halted [0x41] []).run = .halted := rfl

theorem witness_RunIsSteppingThePendingWords : demoCoef.pending = [] ∧
    runWords [0x015783, 0x100000] demoCoef = .next { demo .ready [] [] with responses := [.ok 0xD4, .ok 0x00] } :=
  ⟨rfl, rfl⟩

theorem witness_EncodeOfDecode : decode 0x2102D1 = .ok (.ipPush 0x02 0xD1) := rfl

theorem witness_IllegalWordsAreAnsweredIllegalCommand :
    State.reset.run = .ready ∧ (wordFields 0x000000).wellFormed = false ∧ (wordFields 0x100001).wellFormed = false ∧
      (wordFields 0x220100).wellFormed = false ∧ (wordFields 0x12FF00).wellFormed = true := by decide

theorem witness_OpcodeRowsDecideTheCommand :
    ⟨.gfInv, 0x030000, 0xFF00FF⟩ ∈ opcodeMap ∧ rowMatches 0x035300 ⟨.gfInv, 0x030000, 0xFF00FF⟩ = true := by decide

theorem witness_ClmulBitIsTheConvolution : (0 : Nat) < 15 ∧ (14 : Nat) < 15 := by decide

/-- Also for SerialMultiplierEqualsGfMul's hypothesis; the quotient one and the remainder zero reach both ends. -/
theorem witness_GfReduceIsTheRemainder :
    (0x11B : Poly9).getLsbD 8 = true ∧ (0x11B : Poly15) = timesPoly 0x11B 0x01 ^^^ (0x00 : Byte).setWidth 15 := by decide

/-- For every pure statement over the admissible polynomials. -/
theorem witness_AdmissiblePoly : (0x11B : Poly9) ∈ Config.admissiblePolys ∧ (0x1F9 : Poly9) ∈ Config.admissiblePolys ∧
    (0x100 : Poly9) ∉ Config.admissiblePolys := by decide

theorem witness_GfMulLaws : (0x11B : Poly9) ∈ Config.admissiblePolys ∧ gfMul 0x11B 0x57 0x00 = 0x00 := by decide

/-- For PowersReduceModulo255, InverseIsUniqueAndUndefinedAtZero and DivisionLaws: an admissible polynomial and the
nonzero bytes at both ends of their range. -/
theorem witness_nonzero_bytes :
    (0x11B : Poly9) ∈ Config.admissiblePolys ∧ (0x01 : Byte) ≠ 0x00 ∧ (0xFF : Byte) ≠ 0x00 := by decide

/-- Both clauses of GfInvAnswersInverseOrHalts and of GfDivAnswersQuotientOrHalts, the operand at both ends of its
range. -/
theorem witness_GfInvAnswersInverseOrHalts :
    demoCoef.run = .ready ∧ (0x01 : Byte) ≠ 0x00 ∧ (0xFF : Byte) ≠ 0x00 ∧ (0x00 : Byte) = 0x00 := by decide

set_option maxRecDepth 100000 in
/-- `0x03` is primitive under `0x11B` (R48): no power below 255 is one. -/
theorem witness_primitive_powers :
    (List.range 255).all (fun e => e == 0 || gfPow 0x11B 0x03 e != 0x01) = true ∧ gfPow 0x11B 0x03 255 = 0x01 := by
  decide +kernel

theorem witness_TableMultiplierEqualsGfMul : (0x11B : Poly9) ∈ Config.admissiblePolys ∧ IsPrimitive 0x11B 0x03 := by
  refine ⟨by decide, witness_primitive_powers.2, fun e h1 h2 => ?_⟩
  have h := List.all_eq_true.1 witness_primitive_powers.1 e (List.mem_range.2 h2)
  simpa [show e ≠ 0 by omega] using h

/-- For GfAddAnswersXor, GfMulAnswersProduct, PeClrEmptiesTheCoefficients and IpClrEmptiesThePoints. -/
theorem witness_ready : demoCoef.run = .ready ∧ demoPoints.run = .ready := ⟨rfl, rfl⟩

theorem witness_PePushAppendsTheCoefficient :
    (demo .ready (List.replicate 255 0x01) []).run = .ready ∧ (demo .ready [] []).run = .ready ∧
    (demo .ready [] []).clen < 255 ∧ (demo .ready (List.replicate 254 0x01) []).clen < 255 ∧
      (demo .ready (List.replicate 255 0x01) []).clen = 255 := by decide +kernel

theorem witness_PeEvalAnswersThePolynomialValue :
    demoCoef.run = .ready ∧ (demo .ready [] []).run = .ready ∧ demoCoef.coef = 0x41 :: [0x1D, 0xA7] ∧ (0xFF : Byte) ≠ 0x00 ∧ (demo .ready [] []).clen = 0 ∧ demoCoef.clen ≠ 0 := by
  decide

theorem witness_LagrangeIsDefinedForDistinctIndices :
    ([((0x00 : Byte), (0x99 : Byte)), (0x01, 0xFB)].map Prod.fst).Nodup ∧
      ((0x00 : Byte), (0x99 : Byte)) ∈ [((0x00 : Byte), (0x99 : Byte)), (0x01, 0xFB)] := by decide

theorem witness_LagrangeIgnoresTheOrder :
    [((0x02 : Byte), (0xD1 : Byte)), (0x04, 0xAB)].Perm [(0x04, 0xAB), (0x02, 0xD1)] := List.Perm.swap ..

theorem witness_LagrangeRecoversTheConstantTerm :
    [(0x02 : Byte), 0x04, 0x05].Nodup ∧ [(0x1D : Byte), 0xA7].length + 1 ≤ [(0x02 : Byte), 0x04, 0x05].length := by decide

theorem witness_IpPushAppendsThePoint :
    (demo .ready [] (List.replicate 256 ⟨0x01, 0x00⟩)).run = .ready ∧ (demo .ready [] []).run = .ready ∧
    (demo .ready [] []).plen < 256 ∧ (demo .ready [] (List.replicate 255 ⟨0x01, 0x00⟩)).plen < 256 ∧
      (demo .ready [] (List.replicate 256 ⟨0x01, 0x00⟩)).plen = 256 := by decide +kernel

/-- The four clauses in the order of the statement, at two points where the clause allows it, each in a READY state. -/
theorem witness_IpInterpAnswersTheInterpolant :
    (2 ≤ (demo .ready [] [⟨0x01, 0x77⟩, ⟨0xFF, 0x77⟩]).plen ∧ (demo .ready [] [⟨0x01, 0x77⟩, ⟨0xFF, 0x77⟩]).px.Nodup ∧
      0x00 ∉ (demo .ready [] [⟨0x01, 0x77⟩, ⟨0xFF, 0x77⟩]).px) ∧
    (demo .ready [] [⟨0x01, 0x77⟩]).plen < 2 ∧
    (2 ≤ (demo .ready [] [⟨0x00, 0x01⟩, ⟨0x00, 0x02⟩]).plen ∧ ¬ (demo .ready [] [⟨0x00, 0x01⟩, ⟨0x00, 0x02⟩]).px.Nodup) ∧
    (2 ≤ (demo .ready [] [⟨0x00, 0x99⟩, ⟨0x01, 0xFB⟩]).plen ∧ (demo .ready [] [⟨0x00, 0x99⟩, ⟨0x01, 0xFB⟩]).px.Nodup ∧
      0x00 ∈ (demo .ready [] [⟨0x00, 0x99⟩, ⟨0x01, 0xFB⟩]).px) := by decide

theorem witness_StepKeepsTheInvariant :
    StateInv { demo .halted (List.replicate 255 0x01) [] with pending := [.command 0x110900], responses := [.err .domainError] } ∧
      step { demo .halted (List.replicate 255 0x01) [] with pending := [.command 0x110900], responses := [.err .domainError] } =
        .next { demo .halted (List.replicate 255 0x01) [] with responses := [.err .domainError, .err .halted] } := by
  exact ⟨⟨by decide +kernel, fun _ => List.mem_singleton.2 rfl⟩, rfl⟩

theorem witness_OnlyDomainErrorHaltsOnlyResetRecovers :
    demoCoef.run = .ready ∧
    execWord 0x030000 demoCoef = .next { demo .halted [0x41, 0x1D, 0xA7] [] with responses := [.err .domainError] } ∧
    execWord 0x030000 (demo .halted [] []) = .next { demo .halted [] [] with responses := [.err .halted] } ∧
    acceptEvent .reset (demo .halted [0x41] []) = .next (demo .ready [] []) := ⟨rfl, rfl, rfl, rfl⟩

/-- Both classes. -/
theorem witness_FaultsChangeAtMostTheRunState :
    execWord 0x120000 demoCoef = .next { demoCoef with responses := demoCoef.responses ++ [.err .reservedIndex] } ∧
    faultClass .reservedIndex = .error ∧
    execWord 0x040500 demoCoef = .next { demoCoef with run := .halted, responses := demoCoef.responses ++ [.err .domainError] } ∧
    faultClass .domainError = .panic := ⟨rfl, rfl, rfl, rfl⟩

theorem witness_CommandsRaiseExactlyTheListedFaults :
    demoCoef.run = .ready ∧ commandFault (.peEval 0x00) demoCoef = some .reservedIndex ∧
      commandFault (.peEval 0x01) demoCoef = none := by decide

theorem witness_CommandsWriteOnlyTheirOwnState :
    exec .ipClr demoPoints = .next { demo .ready [] [] with responses := [.ok 0x00] } := rfl

theorem witness_ValuesDependOnlyOnTheirArguments :
    exec (.peEval 0xFF) (demo .ready [0x41] []) = .next { demo .ready [0x41] [] with responses := [.ok 0x41] } ∧
    exec (.peEval 0xFF) (demo .ready [0x41] [⟨0x01, 0x02⟩]) =
      .next { demo .ready [0x41] [⟨0x01, 0x02⟩] with responses := [.ok 0x41] } ∧
    (demo .ready [0x41] []).coef = (demo .ready [0x41] [⟨0x01, 0x02⟩]).coef := ⟨rfl, rfl, rfl⟩

theorem witness_ReadingCommandsRepeat :
    exec (.peEval 0x01) (demo .ready [0x41] []) = .next { demo .ready [0x41] [] with responses := [.ok 0x41] } ∧
      ({ demo .ready [0x41] [] with responses := [.ok 0x41] } : State).run = .ready := ⟨rfl, rfl⟩

theorem witness_SplitByteAnswersTheShareBytes :
    State.reset.run = .ready ∧ [(0x1D : Byte), 0xA7].length + 1 ≤ 255 ∧ (List.replicate 254 (0x01 : Byte)).length + 1 ≤ 255 ∧
      (0x00 : Byte) ∉ [(0x01 : Byte), 0x02, 0x03, 0x04, 0x05] := by decide +kernel

/-- The four kinds of input, in the order of the statement. -/
theorem witness_CombineByteAnswersTheInterpolant :
    State.reset.run = .ready ∧ ([((0x01 : Byte), (0x77 : Byte)), (0xFF, 0x77)].map Prod.fst).Nodup ∧
      0x00 ∉ [((0x01 : Byte), (0x77 : Byte)), (0xFF, 0x77)].map Prod.fst ∧
    [((0x01 : Byte), (0xFB : Byte))].length < 2 ∧ ¬ ([((0x02 : Byte), (0x05 : Byte)), (0x02, 0x09)].map Prod.fst).Nodup ∧
    ([((0x00 : Byte), (0x99 : Byte)), (0x01, 0xFB)].map Prod.fst).Nodup ∧
      0x00 ∈ [((0x00 : Byte), (0x99 : Byte)), (0x01, 0xFB)].map Prod.fst := by decide

/-- Bad and good parameters, the good ones at both ends. -/
theorem witness_SplitFollowsItsProcedure :
    State.reset.run = .ready ∧ (0 : Nat) = 0 ∧ (3 : Nat) < 4 ∧ (255 : Nat) < 256 ∧ [(0x41 : Byte)] ≠ [] ∧ (1 : Nat) ≤ 1 ∧ (255 : Nat) ≤ 255 := by
  decide

/-- The clauses of R80's procedure, in the order of the statement. -/
theorem witness_CombineFollowsItsProcedure :
    State.reset.run = .ready ∧ [(⟨0x01, [0x41]⟩ : Share)].length < 2 ∧ ¬ ([(⟨0x02, [0x05]⟩ : Share), ⟨0x02, [0x09]⟩].map Share.index).Nodup ∧
    (([(⟨0x01, [0x41, 0x42]⟩ : Share), ⟨0x02, [0x43]⟩].map Share.index).Nodup ∧
      ∃ a ∈ [(⟨0x01, [0x41, 0x42]⟩ : Share), ⟨0x02, [0x43]⟩], ∃ b ∈ [(⟨0x01, [0x41, 0x42]⟩ : Share), ⟨0x02, [0x43]⟩],
        a.payload.length ≠ b.payload.length) ∧
    (∀ a ∈ [(⟨0x01, [0x77]⟩ : Share), ⟨0x02, [0x77]⟩], a.payload.length = 1) ∧
      0x00 ∉ [(⟨0x01, [0x77]⟩ : Share), ⟨0x02, [0x77]⟩].map Share.index ∧
    (∀ a ∈ [(⟨0x01, []⟩ : Share), ⟨0x02, []⟩], a.payload.length = 0) ∧
    ((∀ a ∈ [(⟨0x00, [0x99]⟩ : Share), ⟨0x01, [0xFB]⟩], a.payload.length = 1) ∧
      0x00 ∈ [(⟨0x00, [0x99]⟩ : Share), ⟨0x01, [0xFB]⟩].map Share.index) := by decide

/-- A split of one byte in two shares with `k = 2`, the subset being both. -/
theorem witness_CombineOfSplitIsTheSecret : ∃ shares t,
    split [0x41] 2 2 (fun _ _ => 0x1D) State.reset = .next (.ok shares, t) ∧ shares ⊆ shares ∧
      (shares.map Share.index).Nodup ∧ 2 ≤ shares.length ∧ State.reset.run = .ready := by
  refine ⟨[⟨0x01, [horner Config.poly 0x01 0x41 [0x1D]]⟩, ⟨0x02, [horner Config.poly 0x02 0x41 [0x1D]]⟩], _, rfl, ?_, ?_, ?_, rfl⟩
  · exact fun _ h => h
  · decide
  · decide

/-- Two indices outside the convention, `k = 2`, the subset being both shares in the other order. -/
theorem witness_CombineOfSplitAtAnyIndicesIsTheSecret : State.reset.run = .ready ∧ [(0xFF : Byte), 0x03].Nodup ∧
    (0x00 : Byte) ∉ [(0xFF : Byte), 0x03] ∧ 1 ≤ 2 ∧ 2 ≤ [(0xFF : Byte), 0x03].length ∧ ∃ shares t,
      splitAt 2 [0xFF, 0x03] (fun _ _ => 0x1D) [0x41] State.reset = .next (.ok shares, t) ∧
      shares.reverse ⊆ shares ∧ (shares.reverse.map Share.index).Nodup ∧ 2 ≤ shares.reverse.length := by
  refine ⟨rfl, by decide, by decide, by decide, by decide, [⟨0xFF, [horner Config.poly 0xFF 0x41 [0x1D]]⟩,
    ⟨0x03, [horner Config.poly 0x03 0x41 [0x1D]]⟩], _, rfl, fun _ h => List.mem_reverse.1 h, ?_, ?_⟩
  · decide
  · decide

theorem witness_FewerThanKSharesFitEverySecret :
    [(0x01 : Byte), 0xFF].Nodup ∧ (0x00 : Byte) ∉ [(0x01 : Byte), 0xFF] ∧
      [(0x12 : Byte), 0x34].length = [(0x01 : Byte), 0xFF].length := by decide

/-- Two observed bytes at `k = 3`, which draws two coefficients (the most the rule speaks of), and none at `k = 1`. -/
theorem witness_ObservedBytesAreUniformAndIndependent :
    (0x11B : Poly9) ∈ Config.admissiblePolys ∧ 2 < 3 ∧ Function.Injective ![(0x01 : Byte), 0xFF] ∧
      (∀ i, ![(0x01 : Byte), 0xFF] i ≠ 0x00) ∧ 0 < 1 ∧ Function.Injective (![] : Fin 0 → Byte) := by decide

/-- R77's bytes on the evaluator's worked example, `test_horner`'s numbers. -/
theorem test_observed : observed 0x11B ![0x02, 0xFF] 0x41 ![0x1D, 0xA7] = ![0xD1, 0xD3] := by decide +kernel

end Sys2Proof.Tests
end

section
/-! PROOFS. What a command, a transaction and a step can do, continued from Laws/Exec: the inversions that name the
next state, what a `Reaction` does to each part of the state, and the response of a READY core as a function. -/

namespace Sys2Proof.Machine

variable {s t u : State} {i : Instr} {r : Response} {w : CommandWord}

/-- Every command's own rule answers `Halted` in HALTED (spec/60_exceptions.md R88). -/
theorem exec_of_halted (i : Instr) (h : s.run = .halted) : exec i s = .next (answer (.err .halted) s) := by
  cases i <;> exact whenReady_of_halted h

/-- The next state of a command: `Halted` answered in HALTED, one `Reaction` and its response in READY. -/
theorem exec_cases (h : exec i s = .next t) :
    (s.run = .halted ∧ t = answer (.err .halted) s) ∨
      (s.run = .ready ∧ ∃ r u, t = answer r u ∧ Reaction i s r u) := by
  cases hr : s.run with
  | halted =>
    rw [exec_of_halted i hr] at h
    cases h
    exact .inl ⟨rfl, rfl⟩
  | ready =>
    obtain ⟨r, u, he, hu⟩ := exec_of_ready i hr
    rw [he] at h
    cases h
    exact .inr ⟨rfl, r, u, rfl, hu⟩

/-- The next state of a transaction (spec/30_encoding.md R34): the tests of `RUN` and of the word, or the command's
own next state. -/
theorem execWord_cases (h : execWord w s = .next t) :
    (s.run = .halted ∧ t = answer (.err .halted) s) ∨
      (s.run = .ready ∧ (∃ e, decode w = .error e) ∧ t = answer (.err .illegalCommand) s) ∨
      (s.run = .ready ∧ ∃ i, decode w = .ok i ∧ exec i s = .next t) := by
  obtain ⟨hr, ht⟩ | ⟨hr, hk⟩ := whenReady_cases h
  · exact .inl ⟨hr, ht⟩
  · cases hd : decode w with
    | ok i =>
      simp only [hd] at hk
      exact .inr (.inr ⟨hr, i, rfl, hk⟩)
    | error e =>
      simp only [hd, raise_of_ne s (e := .illegalCommand) nofun] at hk
      cases hk
      exact .inr (.inl ⟨hr, ⟨e, rfl⟩, rfl⟩)

/-- The next state of a step: the same with nothing pending, else the reaction to the first pending event. -/
theorem step_cases (h : step s = .next t) :
    (s.pending = [] ∧ t = s) ∨
      ∃ e rest, s.pending = e :: rest ∧ acceptEvent e { s with pending := rest } = .next t := by
  rw [step, nextTransaction] at h
  cases hp : s.pending with
  | nil =>
    rw [takeEvent_nil hp] at h
    cases h
    exact .inl ⟨rfl, rfl⟩
  | cons e rest =>
    rw [takeEvent_cons hp] at h
    exact .inr ⟨e, rest, rfl, h⟩

/-! ## What a reaction does to each part of the state -/

/-- No reaction touches the two sides of the port; the response is added by `answer`. -/
theorem Reaction.port_eq (h : Reaction i s r u) : u.pending = s.pending ∧ u.responses = s.responses := by
  cases h <;> exact ⟨rfl, rfl⟩

/-- The pushes test the capacity, so every reaction keeps the lengths legal (spec/10_state.md R13). -/
theorem Reaction.wf (h : Reaction i s r u) (hs : s.wf = true) : u.wf = true := by
  cases h with
  | value | error => exact hs
  | panic => exact hs
  | clearedCoef => exact clearCoef_wf s hs
  | pushedCoef c _ hc => exact pushCoef_wf s c hs hc
  | clearedPoints => exact clearPoints_wf s hs
  | pushedPoint x y _ hp => exact pushPoint_wf s ⟨x, y⟩ hs hp

/-- A READY core halts exactly on `DomainError` (R9; spec/60_exceptions.md R87). -/
theorem Reaction.halted_iff (h : Reaction i s r u) (hs : s.run = .ready) :
    u.run = .halted ↔ r = .err .domainError := by
  cases h with
  | panic => simp
  | error e he => simp [hs, he]
  | value | clearedCoef | pushedCoef | clearedPoints | pushedPoint => simp [hs]

/-- Only `PE.CLR` and `PE.PUSH` write the coefficients (R8). -/
theorem Reaction.coef_of_ne (h : Reaction i s r u) (hc : u.coef ≠ s.coef) : i = .peClr ∨ ∃ c, i = .pePush c := by
  cases h with
  | clearedCoef hi => exact .inl hi
  | pushedCoef c hi => exact .inr ⟨c, hi⟩
  | value | error | panic | clearedPoints | pushedPoint => exact absurd rfl hc

/-- Only `IP.CLR` and `IP.PUSH` write the points (R8). -/
theorem Reaction.points_of_ne (h : Reaction i s r u) (hp : u.points ≠ s.points) :
    i = .ipClr ∨ ∃ x y, i = .ipPush x y := by
  cases h with
  | clearedPoints hi => exact .inl hi
  | pushedPoint x y hi => exact .inr ⟨x, y, hi⟩
  | value | error | panic | clearedCoef | pushedCoef => exact absurd rfl hp

/-! ## The invariant -/

/-- A response more keeps the invariant. -/
theorem StateInv.answer (h : StateInv s) (r : Response) : StateInv (answer r s) :=
  ⟨h.1, fun hr => List.mem_append_left _ (h.2 hr)⟩

theorem exec_keeps_stateInv (hs : StateInv s) (h : exec i s = .next t) : StateInv t := by
  obtain ⟨-, rfl⟩ | ⟨hr, r, u, rfl, hu⟩ := exec_cases h
  · exact hs.answer _
  · refine ⟨hu.wf hs.1, fun hh => ?_⟩
    have hd : r = .err .domainError := (hu.halted_iff hr).1 hh
    simp [hd]

theorem execWord_keeps_stateInv (hs : StateInv s) (h : execWord w s = .next t) : StateInv t := by
  obtain ⟨-, rfl⟩ | ⟨-, -, rfl⟩ | ⟨-, i, -, hi⟩ := execWord_cases h
  · exact hs.answer _
  · exact hs.answer _
  · exact exec_keeps_stateInv hs hi

/-- A reset core is READY and empty, so it meets the invariant whatever the state before. -/
theorem stateInv_resetCore (s : State) : StateInv (resetCore s) := ⟨rfl, nofun⟩

theorem acceptEvent_keeps_stateInv {e : HostEvent} (hs : StateInv s) (h : acceptEvent e s = .next t) :
    StateInv t := by
  cases e with
  | command w => exact execWord_keeps_stateInv hs h
  | reset =>
    cases h
    exact stateInv_resetCore s

/-! ## The response of a READY core as a function of the command and the buffers -/

/-- The response `respondPartial` gives. -/
def partialResponse : Option Byte → Response
  | none => .err .domainError
  | some v => .ok v

/-- The response of a READY core with these buffers to a command: what the command reads of the state shows in the
arguments its arm uses (the "read by" column of R8). -/
def readyResponse (i : Instr) (coef : List Byte) (points : List Point) : Response :=
  match i with
  | .gfAdd a b => .ok (gfAdd a b)
  | .gfMul a b => .ok (gfMul Config.poly a b)
  | .gfInv a => partialResponse (gfInv Config.poly a)
  | .gfDiv a b => partialResponse (gfDiv Config.poly a b)
  | .peClr => .ok 0x00
  | .pePush _ => if Config.coefCapacity ≤ coef.length then .err .invalidParameters else .ok 0x00
  | .peEval x =>
    match coef with
    | [] => .err .invalidParameters
    | c0 :: cs => if x = 0x00 then .err .reservedIndex else .ok (horner Config.poly x c0 cs)
  | .ipClr => .ok 0x00
  | .ipPush _ _ => if Config.pointCapacity ≤ points.length then .err .duplicateIndex else .ok 0x00
  | .ipInterp =>
    if points.length < 2 then .err .insufficientShares
    else if hasDuplicate (points.map Point.x) then .err .duplicateIndex
    else if hasZero (points.map Point.x) then .err .domainError
    else partialResponse (lagrange0 Config.poly (points.map fun q => (q.x, q.y)))

/-- A raise adds the fault's response, whatever its class. -/
theorem raise_responses {e : ErrorName} (h : raise e s = .next t) : t.responses = s.responses ++ [.err e] := by
  obtain ⟨-, rfl⟩ | ⟨-, rfl⟩ := raise_cases h <;> rfl

theorem respondPartial_responses {v : Option Byte} (h : respondPartial v s = .next t) :
    t.responses = s.responses ++ [partialResponse v] := by
  cases v with
  | none => exact raise_responses h
  | some v => cases h; rfl

theorem exec_responses (hr : s.run = .ready) (h : exec i s = .next t) :
    t.responses = s.responses ++ [readyResponse i s.coef s.points] := by
  cases i with
  | gfAdd a b => rw [exec, execGfAdd, whenReady_of_ready hr] at h; cases h; rfl
  | gfMul a b => rw [exec, execGfMul, whenReady_of_ready hr] at h; cases h; rfl
  | gfInv a => rw [exec, execGfInv, whenReady_of_ready hr] at h; exact respondPartial_responses h
  | gfDiv a b => rw [exec, execGfDiv, whenReady_of_ready hr] at h; exact respondPartial_responses h
  | peClr => rw [exec, execPeClr, whenReady_of_ready hr] at h; cases h; rfl
  | pePush c =>
    rw [exec, execPePush, whenReady_of_ready hr, State.clen] at h
    rw [readyResponse]
    split_ifs at h ⊢
    · exact raise_responses h
    · cases h; rfl
  | peEval x =>
    rw [exec, execPeEval, whenReady_of_ready hr] at h
    cases hc : s.coef with
    | nil => rw [hc] at h; exact raise_responses h
    | cons c0 cs =>
      simp only [hc, readyResponse] at h ⊢
      split_ifs at h ⊢
      · exact raise_responses h
      · cases h; rfl
  | ipClr => rw [exec, execIpClr, whenReady_of_ready hr] at h; cases h; rfl
  | ipPush x y =>
    rw [exec, execIpPush, whenReady_of_ready hr, State.plen] at h
    rw [readyResponse]
    split_ifs at h ⊢
    · exact raise_responses h
    · cases h; rfl
  | ipInterp =>
    rw [exec, execIpInterp, whenReady_of_ready hr, State.plen, State.px] at h
    rw [readyResponse]
    split_ifs at h ⊢
    · exact raise_responses h
    · exact raise_responses h
    · exact raise_responses h
    · exact respondPartial_responses h

end Sys2Proof.Machine
end

section
/-! PROOFS. The obligations about the state (spec/10_state.md). -/

namespace Sys2Proof.Machine

/-- Settles O43, by the inversion of `step`: the idle step keeps the state, and every event keeps the invariant. -/
theorem stepKeepsTheInvariant : Obligations.StepKeepsTheInvariant := by
  intro s t hs h
  obtain ⟨-, rfl⟩ | ⟨e, rest, -, he⟩ := step_cases h
  · exact hs
  · have hs' : StateInv { s with pending := rest } := hs
    exact acceptEvent_keeps_stateInv hs' he

/-- Settles O44: from READY by `Reaction.halted_iff`, from HALTED because every word is answered `Halted`. -/
theorem onlyDomainErrorHaltsOnlyResetRecovers : Obligations.OnlyDomainErrorHaltsOnlyResetRecovers := by
  refine ⟨rfl, rfl, fun w s t hr h => ?_, fun w s t hr h => ?_, fun s t h => ?_⟩
  · obtain ⟨hh, -⟩ | ⟨-, -, rfl⟩ | ⟨-, i, -, hi⟩ := execWord_cases h
    · simp [hr] at hh
    · simp [hr]
    · obtain ⟨hh, -⟩ | ⟨-, r, u, rfl, hu⟩ := exec_cases hi
      · simp [hr] at hh
      · simp [hu.halted_iff hr, hu.port_eq.2]
  · rw [execWord, whenReady_of_halted hr] at h
    cases h
    exact ⟨hr, rfl⟩
  · cases h
    rfl

/-- Settles O47: in HALTED only a response is added, in READY the command's `Reaction` says what it writes. -/
theorem commandsWriteOnlyTheirOwnState : Obligations.CommandsWriteOnlyTheirOwnState := by
  intro i s t h
  obtain ⟨-, rfl⟩ | ⟨-, r, u, rfl, hu⟩ := exec_cases h
  · exact ⟨rfl, ⟨_, rfl⟩, fun hc => absurd rfl hc, fun hp => absurd rfl hp⟩
  · obtain ⟨hpend, hresp⟩ := hu.port_eq
    exact ⟨hpend, ⟨r, by simp [hresp]⟩, hu.coef_of_ne, hu.points_of_ne⟩

/-- Settles O48: `readyResponse` uses, in the arm of each of these commands, only what the hypothesis fixes. -/
theorem valuesDependOnlyOnTheirArguments : Obligations.ValuesDependOnlyOnTheirArguments := by
  intro i s s' t t' hs hs' h h' hi
  have same : readyResponse i s'.coef s'.points = readyResponse i s.coef s.points := by
    obtain ⟨a, b, rfl | rfl | rfl | rfl⟩ | ⟨⟨x, rfl⟩, hc⟩ | ⟨rfl, hp⟩ := hi
    · rfl
    · rfl
    · rfl
    · rfl
    · simp only [readyResponse, hc]
    · simp only [readyResponse, hp]
  exact ⟨_, exec_responses hs h, same ▸ exec_responses hs' h'⟩

/-- Settles O1: both buffers are empty, and no element at or above a length holds a value. -/
theorem resetIsReadyAndEmpty : Obligations.ResetIsReadyAndEmpty :=
  ⟨rfl, rfl, rfl, fun j => coefAt_eq_none _ j (Nat.zero_le j), fun i => pointAt_eq_none _ i (Nat.zero_le i)⟩

/-- Settles O42: the state at reset is its own reset. -/
theorem resetMeetsTheInvariant : Obligations.ResetMeetsTheInvariant := stateInv_resetCore State.reset

end Sys2Proof.Machine
end

section
/-! PROOFS. The obligation about commands as the only accesses to the state (spec/20_memory.md). -/

namespace Sys2Proof.Machine

variable {s t : State} {i : Instr}

/-- A command that finds the core HALTED leaves it so: only a READY core can be left READY. -/
theorem ready_of_exec_ready (h : exec i s = .next t) (ht : t.run = .ready) : s.run = .ready := by
  obtain ⟨hs, rfl⟩ | ⟨hs, -⟩ := exec_cases h
  · exact ht
  · exact hs

/-- `PE.EVAL` and `IP.INTERP` only read the buffers (spec/20_memory.md R22). -/
theorem exec_read_keeps_buffers (hi : (∃ x, i = .peEval x) ∨ i = .ipInterp) (h : exec i s = .next t) :
    t.coef = s.coef ∧ t.points = s.points := by
  obtain ⟨-, rfl⟩ | ⟨-, r, u, rfl, hu⟩ := exec_cases h
  · exact ⟨rfl, rfl⟩
  · constructor
    · by_contra hc
      obtain ⟨x, rfl⟩ | rfl := hi <;> simpa using hu.coef_of_ne hc
    · by_contra hp
      obtain ⟨x, rfl⟩ | rfl := hi <;> simpa using hu.points_of_ne hp

/-- Settles O49: both runs start READY with the same buffers, which fix the response. -/
theorem readingCommandsRepeat : Obligations.ReadingCommandsRepeat := by
  intro i s t hi h ht
  obtain ⟨hc, hp⟩ := exec_read_keeps_buffers hi h
  obtain ⟨r, u, hu, -⟩ := exec_of_ready i ht
  have first := exec_responses (ready_of_exec_ready h ht) h
  have second := exec_responses ht hu
  rw [hc, hp] at second
  exact ⟨_, _, first, hu, second⟩

end Sys2Proof.Machine
end

section
/-! PROOFS. The decoder by the rows of the opcode map (spec/30_encoding.md R33): when a word matches a row, that the
rows are disjoint, and what the decoder and the encoder make of a matched row. -/

namespace Sys2Proof

variable {w : CommandWord} {r r' : OpcodeRow} {i : Instr}

/-- `rowMatches_packWord` for a word given whole. -/
theorem rowMatches_iff (hr : r ∈ opcodeMap) : rowMatches w r = true ↔
    wordOpc w = wordOpc r.pattern ∧ wordA w &&& wordA r.mask = wordA r.pattern ∧
      wordB w &&& wordB r.mask = wordB r.pattern := by
  have h := rowMatches_packWord (wordOpc w) (wordA w) (wordB w) r hr
  rw [packWord_fields] at h
  rw [h, decide_eq_true_eq]

/-- The opcode byte alone names the row. -/
theorem row_eq_of_opcode_eq : ∀ r ∈ opcodeMap, ∀ r' ∈ opcodeMap,
    wordOpc r.pattern = wordOpc r'.pattern → r = r' := by decide

/-- The assigned opcodes of R35 (a) are those of the map's rows. -/
theorem assignedOpcodes_eq : assignedOpcodes = opcodeMap.map fun r => wordOpc r.pattern := by decide

/-- No two rows match the same word. -/
theorem row_unique (hr : r ∈ opcodeMap) (h : rowMatches w r = true) (hr' : r' ∈ opcodeMap)
    (h' : rowMatches w r' = true) : r' = r := by
  obtain ⟨ho, -⟩ := (rowMatches_iff hr).1 h
  obtain ⟨ho', -⟩ := (rowMatches_iff hr').1 h'
  exact row_eq_of_opcode_eq r' hr' r hr (ho'.symm.trans ho)

/-- A word decodes as the row it matches. -/
theorem decode_of_rowMatches (hr : r ∈ opcodeMap) (h : rowMatches w r = true) :
    decode w = .ok (instrOf r.mnemonic (wordA w) (wordB w)) := by
  rw [decode]
  cases hf : opcodeMap.find? (rowMatches w) with
  | none => exact absurd h (List.find?_eq_none.1 hf r hr)
  | some r' =>
    obtain rfl := row_unique hr h (List.mem_of_find?_eq_some hf) (List.find?_some hf)
    rfl

/-- A decoded command comes from a row that the word matches. -/
theorem exists_row_of_decode (h : decode w = .ok i) :
    ∃ r ∈ opcodeMap, rowMatches w r = true ∧ i = instrOf r.mnemonic (wordA w) (wordB w) := by
  rw [decode] at h
  cases hf : opcodeMap.find? (rowMatches w) with
  | none => simp [hf] at h
  | some r =>
    simp only [hf] at h
    cases h
    exact ⟨r, List.mem_of_find?_eq_some hf, List.find?_some hf, rfl⟩

/-! ## Masks and unused fields -/

theorem byte_and_ones (x : Byte) : x &&& 255#8 = x := BitVec.and_allOnes

/-- What is zero under a mask is unchanged by its complement. -/
theorem and_not_of_and_eq_zero {x m : Byte} (h : x &&& m = 0x00) : x &&& ~~~m = x := by
  ext i hi
  have bit := congrArg (·[i]) h
  simpa using bit

theorem and_not_and (x m : Byte) : x &&& ~~~m &&& m = 0x00 := by
  rw [BitVec.and_assoc, BitVec.not_and_self]
  exact BitVec.and_zero

/-- The mask of a field that must be zero for these opcodes: all of it for them, none of it for the others. -/
def unusedMask (opcodes : List Byte) (o : Byte) : Byte := if opcodes.contains o then 0xFF else 0x00

/-- Being zero under that mask is R35's check of the field. -/
theorem and_unusedMask_eq_zero (opcodes : List Byte) (o x : Byte) :
    x &&& unusedMask opcodes o = 0x00 ↔ (!opcodes.contains o || x == 0) = true := by
  by_cases h : o ∈ opcodes
  · simp [unusedMask, h, byte_and_ones]
  · simp [unusedMask, h]

/-- Off its opcode a row's pattern is zero, and its mask covers the fields that R35 calls unused. -/
theorem row_operand_fields : ∀ r ∈ opcodeMap, wordA r.pattern = 0x00 ∧ wordB r.pattern = 0x00 ∧
    wordA r.mask = unusedMask opcodesWithoutA (wordOpc r.pattern) ∧
    wordB r.mask = unusedMask opcodesWithoutB (wordOpc r.pattern) := by decide

/-- A word matches a row exactly when it has the row's opcode and passes the checks of R35's prose. -/
theorem rowMatches_iff_wellFormed (hr : r ∈ opcodeMap) :
    rowMatches w r = true ↔ wordOpc w = wordOpc r.pattern ∧ (wordFields w).wellFormed = true := by
  obtain ⟨pa, pb, ma, mb⟩ := row_operand_fields r hr
  have assigned : wordOpc r.pattern ∈ assignedOpcodes := assignedOpcodes_eq ▸ List.mem_map_of_mem hr
  rw [rowMatches_iff hr, and_congr_right_iff]
  intro ho
  rw [pa, pb, ma, mb, and_unusedMask_eq_zero, and_unusedMask_eq_zero, and_comm]
  simp [Fields.wellFormed, Fields.opcodeAssigned, Fields.unusedAZero, Fields.unusedBZero, wordFields, ho, assigned]

/-! ## The encoder by rows -/

/-- The encoder packs the row's opcode and the operands, with zero in the fields under the row's mask. -/
theorem encode_instrOf (a b : Byte) : ∀ r ∈ opcodeMap, encode (instrOf r.mnemonic a b) =
    packWord (wordOpc r.pattern) (a &&& ~~~wordA r.mask) (b &&& ~~~wordB r.mask) := by
  simp [opcodeMap, instrOf, encode, wordOpc, wordA, wordB, byte_and_ones]

/-- Encoding the command of a matched row gives the word back. -/
theorem encode_of_rowMatches (hr : r ∈ opcodeMap) (h : rowMatches w r = true) :
    encode (instrOf r.mnemonic (wordA w) (wordB w)) = w := by
  obtain ⟨pa, pb, -⟩ := row_operand_fields r hr
  obtain ⟨ho, ha, hb⟩ := (rowMatches_iff hr).1 h
  rw [encode_instrOf _ _ r hr, ← ho, and_not_of_and_eq_zero (ha.trans pa), and_not_of_and_eq_zero (hb.trans pb),
    packWord_fields]

/-- The encoded command of a row matches the row: what lies under the mask is zero, as in the pattern. -/
theorem rowMatches_encode (hr : r ∈ opcodeMap) (a b : Byte) :
    rowMatches (encode (instrOf r.mnemonic a b)) r = true := by
  obtain ⟨pa, pb, -⟩ := row_operand_fields r hr
  rw [encode_instrOf a b r hr, rowMatches_packWord _ _ _ r hr, and_not_and, and_not_and, pa, pb]
  simp

/-- The operands of an instruction stand in the fields from which `instrOf` reads them (R32). -/
theorem instrOf_encode (i : Instr) : instrOf (mnemonicOf i) (wordA (encode i)) (wordB (encode i)) = i := by
  cases i <;> simp [instrOf, mnemonicOf, encode]

theorem exists_row_of_mnemonic (m : Mnemonic) : ∃ r ∈ opcodeMap, r.mnemonic = m := by
  cases m <;> decide

theorem decode_encode (i : Instr) : decode (encode i) = .ok i := by
  obtain ⟨r, hr, hm⟩ := exists_row_of_mnemonic (mnemonicOf i)
  have h := rowMatches_encode hr (wordA (encode i)) (wordB (encode i))
  rw [hm, instrOf_encode] at h
  rw [decode_of_rowMatches hr h, hm, instrOf_encode]

/-- The words that decode are those that pass the checks of R35. -/
theorem decodes_iff_wellFormed (w : CommandWord) :
    (∃ i, decode w = .ok i) ↔ (wordFields w).wellFormed = true := by
  constructor
  · rintro ⟨i, hi⟩
    obtain ⟨r, hr, hm, -⟩ := exists_row_of_decode hi
    exact ((rowMatches_iff_wellFormed hr).1 hm).2
  · intro hw
    have ho : wordOpc w ∈ assignedOpcodes := by
      simp only [Fields.wellFormed, Bool.and_eq_true, Fields.opcodeAssigned, List.contains_iff_mem] at hw
      exact hw.1.1
    obtain ⟨r, hr, ho⟩ := List.mem_map.1 (assignedOpcodes_eq ▸ ho)
    exact ⟨_, decode_of_rowMatches hr ((rowMatches_iff_wellFormed hr).2 ⟨ho.symm, hw⟩)⟩

end Sys2Proof
end

section
/-! PROOFS. The transaction and the step, word by word, and the obligations about the encoding
(spec/30_encoding.md). -/

namespace Sys2Proof.Machine

variable {s : State} {w : CommandWord} {rest : List HostEvent}

/-! ## The transaction and the step as equations -/

/-- The transaction of a READY core on an illegal word (R34, R35). -/
theorem execWord_of_illegal {e : IllegalWord} (hr : s.run = .ready) (hd : decode w = .error e) :
    execWord w s = .next (answer (.err .illegalCommand) s) := by
  simp only [execWord, whenReady_of_ready hr, hd]
  exact raise_of_ne s nofun

/-- The transaction of a HALTED core, whatever the word (R34). -/
theorem execWord_of_halted (w : CommandWord) (hr : s.run = .halted) :
    execWord w s = .next (answer (.err .halted) s) := whenReady_of_halted hr

/-- A transaction always answers, with one response added and the coming events left alone (R29, R34). -/
theorem execWord_total (w : CommandWord) (s : State) :
    ∃ r t, execWord w s = .next t ∧ t.responses = s.responses ++ [r] ∧ t.pending = s.pending := by
  cases hr : s.run with
  | halted => exact ⟨_, _, execWord_of_halted w hr, rfl, rfl⟩
  | ready =>
    cases hd : decode w with
    | error e => exact ⟨_, _, execWord_of_illegal hr hd, rfl, rfl⟩
    | ok i =>
      obtain ⟨r, u, he, hu⟩ := exec_of_ready i hr
      obtain ⟨hpend, hresp⟩ := hu.port_eq
      exact ⟨r, _, (execWord_of_decode hr hd).trans he, by simp [hresp], hpend⟩

/-- A step with an event pending is the reaction to it. -/
theorem step_of_pending {e : HostEvent} (h : s.pending = e :: rest) :
    step s = acceptEvent e { s with pending := rest } := by
  rw [step, nextTransaction, takeEvent_cons h]

/-! ## The obligations -/

/-- Settles O10: the encoded word matches the instruction's row, and its fields hold the instruction's operands. -/
theorem decodeOfEncode : Obligations.DecodeOfEncode := decode_encode

/-- Settles O7: the transaction by `execWord_total`, the step by the first event pending, if any. -/
theorem stepIsTotalWithOneResponse : Obligations.StepIsTotalWithOneResponse := by
  refine ⟨fun s w => execWord_total w s, fun s => ?_⟩
  cases hp : s.pending with
  | nil => exact ⟨s, by rw [step, nextTransaction, takeEvent_nil hp]⟩
  | cons e rest =>
    rw [step_of_pending hp]
    cases e with
    | command w =>
      obtain ⟨-, t, ht, -⟩ := execWord_total w { s with pending := rest }
      exact ⟨t, ht⟩
    | reset => exact ⟨_, rfl⟩

/-- Settles O11, by the row that the word matches. -/
theorem encodeOfDecode : Obligations.EncodeOfDecode := by
  intro w i h
  obtain ⟨r, hr, hm, rfl⟩ := exists_row_of_decode h
  exact encode_of_rowMatches hr hm

/-- Settles O12: the mask table agrees with the prose of R35, and what does not decode is answered. -/
theorem illegalWordsAreAnsweredIllegalCommand : Obligations.IllegalWordsAreAnsweredIllegalCommand := by
  refine ⟨by decide, decodes_iff_wellFormed, fun w s hr hw => ?_⟩
  cases hd : decode w with
  | error e => exact execWord_of_illegal hr hd
  | ok i =>
    have hw' := (decodes_iff_wellFormed w).1 ⟨i, hd⟩
    simp [hw] at hw'

/-- Settles O13: the rows differ in the opcode byte, so the row found is the row matched. -/
theorem opcodeRowsDecideTheCommand : Obligations.OpcodeRowsDecideTheCommand := fun _ _ hr h =>
  ⟨decode_of_rowMatches hr h, fun _ hr' h' => row_unique hr h hr' h'⟩

/-- Settles O4: the step is the transaction on the first event, and the three tests of R34 give its three cases. -/
theorem stepExecutesTheDecodedCommand : Obligations.StepExecutesTheDecodedCommand := by
  intro s w rest hp
  rw [step_of_pending hp]
  exact ⟨fun i hr hd => execWord_of_decode hr hd, fun why hr hd => execWord_of_illegal hr hd,
    fun hr => execWord_of_halted w hr⟩

/-- Settles O14, by running the decoder on each word. -/
theorem sampleWordsDecode : Obligations.SampleWordsDecode := ⟨rfl, rfl, rfl, rfl, rfl, rfl, rfl⟩

/-- Settles O15, by running the assembler on each line. -/
theorem assemblerExamples : Obligations.AssemblerExamples := ⟨rfl, rfl, rfl, rfl, rfl⟩

/-- Settles O16: the layout is the definition's, and no code of the table of R84 is zero. -/
theorem responseWordLayout : Obligations.ResponseWordLayout := by
  refine ⟨fun v => rfl, fun e => rfl, fun e => ?_⟩
  cases e <;> decide

end Sys2Proof.Machine
end

section
/-! PROOFS. Bit vectors as polynomials over GF(2), bit `i` being the coefficient of `X ^ i`
(spec/20_memory.md R20), and the loops of spec/40_field_alu.md section 1.2 as sums and products of polynomials. -/

namespace Sys2Proof.Machine

open Polynomial

variable {v w n : Nat}

/-- The polynomial whose coefficients are the bits of `p`. -/
noncomputable def toPoly (p : BitVec w) : (ZMod 2)[X] := ∑ i ∈ Finset.range w, if p.getLsbD i then X ^ i else 0

theorem coeff_toPoly (p : BitVec w) (j : Nat) : (toPoly p).coeff j = if p.getLsbD j then 1 else 0 := by
  have term (i : Nat) : (if p.getLsbD i then (X : (ZMod 2)[X]) ^ i else 0).coeff j =
      if j = i then (if p.getLsbD i then 1 else 0) else 0 := by
    split_ifs <;> simp_all [coeff_X_pow]
  rw [toPoly, finsetSum_coeff, Finset.sum_congr rfl fun i _ => term i, Finset.sum_ite_eq]
  by_cases hj : j < w
  · simp [hj]
  · simp [hj, BitVec.getLsbD_of_ge p j (by omega)]

/-- Two bit vectors, of whatever widths, have the same polynomial exactly when they have the same bits. -/
theorem toPoly_eq_iff (p : BitVec w) (q : BitVec v) : toPoly p = toPoly q ↔ ∀ j, p.getLsbD j = q.getLsbD j := by
  simp only [Polynomial.ext_iff, coeff_toPoly]
  refine forall_congr' fun j => ?_
  cases p.getLsbD j <;> cases q.getLsbD j <;> simp

theorem toPoly_injective : Function.Injective (toPoly : BitVec w → (ZMod 2)[X]) := fun p q h =>
  BitVec.eq_of_getLsbD_eq fun j _ => (toPoly_eq_iff p q).1 h j

@[simp] theorem toPoly_zero : toPoly 0#w = 0 := by
  ext j
  simp [coeff_toPoly]

@[simp] theorem toPoly_one : toPoly 1#8 = 1 := by simp [toPoly]

@[simp] theorem toPoly_xor (p q : BitVec w) : toPoly (p ^^^ q) = toPoly p + toPoly q := by
  ext j
  rw [coeff_add, coeff_toPoly, coeff_toPoly, coeff_toPoly, BitVec.getLsbD_xor]
  cases p.getLsbD j <;> cases q.getLsbD j <;> decide

/-- A change of width that loses no set bit keeps the polynomial. -/
theorem toPoly_setWidth (p : BitVec w) (h : ∀ j, v ≤ j → p.getLsbD j = false) :
    toPoly (p.setWidth v) = toPoly p := by
  rw [toPoly_eq_iff]
  intro j
  by_cases hj : j < v
  · simp [hj]
  · simp [BitVec.getLsbD_setWidth, hj, h j (by omega)]

@[simp] theorem toPoly_setWidth_of_le (p : BitVec w) (h : w ≤ v) : toPoly (p.setWidth v) = toPoly p :=
  toPoly_setWidth p fun _ hj => BitVec.getLsbD_of_ge p _ (h.trans hj)

/-- A left shift that loses no bit multiplies by a power of `X`. -/
theorem toPoly_shiftLeft (p : BitVec w) {i : Nat} (h : w + i ≤ n) :
    toPoly (p.setWidth n <<< i) = toPoly p * X ^ i := by
  ext j
  rw [coeff_mul_X_pow', coeff_toPoly, coeff_toPoly, BitVec.getLsbD_shiftLeft, BitVec.getLsbD_setWidth]
  by_cases hij : i ≤ j
  · by_cases hj : j < n
    · simp [hij, hj, show j - i < n by omega]
    · simp [hij, hj, BitVec.getLsbD_of_ge p (j - i) (by omega)]
  · simp [hij, show j < i by omega]

theorem degree_toPoly_lt (p : BitVec w) : (toPoly p).degree < w :=
  (degree_lt_iff_coeff_zero _ _).2 fun j hj => by simp [coeff_toPoly, BitVec.getLsbD_of_ge p j hj]

/-- Every polynomial of degree below `w` has its coefficients in a bit vector of width `w`. -/
theorem exists_toPoly_eq {P : (ZMod 2)[X]} (h : P.degree < w) : ∃ p : BitVec w, toPoly p = P := by
  refine ⟨BitVec.ofFnLE fun i => decide (P.coeff i = 1), ?_⟩
  have bit : ∀ c : ZMod 2, (if c = 1 then 1 else 0) = c := by decide
  ext j
  rw [coeff_toPoly, BitVec.getLsbD_ofFnLE]
  by_cases hj : j < w
  · simp [hj, bit]
  · simp [hj, (degree_lt_iff_coeff_zero P w).1 h j (by omega)]

/-! ## The shift-and-add loops -/

/-- The loop that adds `a << i` for each set bit `i` of `b`: `clmul` and the products with `POLY`. -/
theorem toPoly_foldl_shift (a : BitVec w) (b : BitVec v) (l : List Nat) (hl : ∀ i ∈ l, w + i ≤ n) (p : BitVec n) :
    toPoly (l.foldl (fun p i => if b.getLsbD i then p ^^^ (a.setWidth n <<< i) else p) p) =
      toPoly p + toPoly a * (l.map fun i => if b.getLsbD i then X ^ i else 0).sum := by
  induction l generalizing p with
  | nil => simp
  | cons i l ih =>
    have turn : toPoly (if b.getLsbD i then p ^^^ (a.setWidth n <<< i) else p) =
        toPoly p + toPoly a * if b.getLsbD i then X ^ i else 0 := by
      split_ifs
      · rw [toPoly_xor, toPoly_shiftLeft a (hl i (by simp))]
      · simp
    rw [List.foldl_cons, ih (fun j hj => hl j (by simp [hj])), turn, List.map_cons, List.sum_cons]
    ring

theorem toPoly_clmul (a b : Byte) : toPoly (clmul a b) = toPoly a * toPoly b := by
  have h := toPoly_foldl_shift a b [0, 1, 2, 3, 4, 5, 6, 7] (n := 15) (by decide) 0
  rw [clmul]
  refine h.trans ?_
  simp [toPoly, Finset.sum_range_succ, add_assoc]

theorem toPoly_timesPoly (poly : Poly9) (q : BitVec 7) : toPoly (timesPoly poly q) = toPoly poly * toPoly q := by
  have h := toPoly_foldl_shift poly q [0, 1, 2, 3, 4, 5, 6] (n := 15) (by decide) 0
  refine h.trans ?_
  simp [toPoly, Finset.sum_range_succ, add_assoc]

/-! ## The bits of the carry-less product -/

theorem clmul_comm (a b : Byte) : clmul a b = clmul b a :=
  toPoly_injective (by rw [toPoly_clmul, toPoly_clmul, mul_comm])

theorem getLsbD_foldl_clmulStep (a b : Byte) {j : Nat} (hj : j < 15) (l : List Nat) (p : Poly15) :
    (l.foldl (clmulStep a b) p).getLsbD j = (p.getLsbD j ^^
      l.foldr (fun i acc => (b.getLsbD i && (decide (i ≤ j) && a.getLsbD (j - i))) ^^ acc) false) := by
  induction l generalizing p with
  | nil => simp
  | cons i l ih =>
    have turn : (clmulStep a b p i).getLsbD j =
        (p.getLsbD j ^^ (b.getLsbD i && (decide (i ≤ j) && a.getLsbD (j - i)))) := by
      rw [clmulStep]
      cases b.getLsbD i with
      | false => simp
      | true => simp [hj, ← decide_not]
    rw [List.foldl_cons, ih, turn, List.foldr_cons, Bool.xor_assoc]

/-- Settles O19: the loop collects the bits of its first operand under the set bits of its second, and `clmul` is
commutative; the indices that the statement leaves out give the bit false. -/
theorem clmulBitIsTheConvolution : Obligations.ClmulBitIsTheConvolution := by
  intro a b j hj
  rw [clmul_comm, clmul, getLsbD_foldl_clmulStep b a hj, List.foldr_filter]
  rw [show (0 : Poly15).getLsbD j = false from BitVec.getLsbD_zero, Bool.false_xor]
  congr 1
  funext i acc
  by_cases hb : j - i ≤ 7
  · by_cases hi : i ≤ j <;> simp [hi, hb]
  · simp [hb, BitVec.getLsbD_of_ge b (j - i) (by omega)]

end Sys2Proof.Machine
end

section
/-! PROOFS. Reduction modulo `POLY` and the bit-serial loop (spec/40_field_alu.md R43, R47): bit vectors as residues
in the quotient ring of GF(2)[X] by `POLY`, each byte being the one residue of its kind. -/

namespace Sys2Proof.Machine

open Polynomial

variable {w : Nat} {poly : Poly9}

/-- The residue of a bit vector's polynomial modulo `POLY`. -/
noncomputable def residue (poly : Poly9) (p : BitVec w) : AdjoinRoot (toPoly poly) :=
  AdjoinRoot.mk (toPoly poly) (toPoly p)

/-! ## The loop of `gf_reduce` -/

theorem residue_reduceStep (p : Poly15) {i : Nat} (h : i < 15) :
    residue poly (reduceStep poly p i) = residue poly p := by
  rw [reduceStep]
  split_ifs
  · rw [residue, toPoly_xor, toPoly_shiftLeft poly (by omega)]
    simp [residue]
  · rfl

/-- The turn `i` clears the bit `i`, the top bit of `POLY` being set, and no higher bit comes back. -/
theorem getLsbD_reduceStep (hp : poly.getLsbD 8 = true) {p : Poly15} {i : Nat} (hi : 8 ≤ i)
    (h : ∀ j, i + 1 ≤ j → p.getLsbD j = false) : ∀ j, i ≤ j → (reduceStep poly p i).getLsbD j = false := by
  intro j hj
  rw [reduceStep]
  obtain rfl | hlt := hj.eq_or_lt
  · split_ifs with hb
    · have shifted : (poly.setWidth 15 <<< (i - 8)).getLsbD i = poly.getLsbD 8 := by
        simp [BitVec.lt_of_getLsbD hb, show ¬ i < i - 8 by omega, show i - (i - 8) = 8 by omega]
      rw [BitVec.getLsbD_xor, hb, shifted, hp, Bool.xor_self]
    · simpa using hb
  · have top : poly.getLsbD (j - (i - 8)) = false := BitVec.getLsbD_of_ge _ _ (by omega)
    split_ifs
    · simp [h j hlt, top]
    · exact h j hlt

theorem residue_foldl_reduceStep (l : List Nat) (hl : ∀ i ∈ l, i < 15) (p : Poly15) :
    residue poly (l.foldl (reduceStep poly) p) = residue poly p := by
  induction l generalizing p with
  | nil => rfl
  | cons i l ih =>
    rw [List.foldl_cons, ih (fun j hj => hl j (by simp [hj])), residue_reduceStep p (hl i (by simp))]

theorem residue_gfReduce (hp : poly.getLsbD 8 = true) (p : Poly15) :
    residue poly (gfReduce poly p) = residue poly p := by
  have cleared : ∀ j, 8 ≤ j → ([14, 13, 12, 11, 10, 9, 8].foldl (reduceStep poly) p).getLsbD j = false := by
    have start : ∀ j, 14 + 1 ≤ j → p.getLsbD j = false := fun j hj => BitVec.getLsbD_of_ge p j hj
    have clear {q : Poly15} {i : Nat} := @getLsbD_reduceStep poly hp q i
    exact clear (by decide) <| clear (by decide) <| clear (by decide) <| clear (by decide) <| clear (by decide) <|
      clear (by decide) <| clear (by decide) start
  rw [residue, gfReduce, toPoly_setWidth _ cleared]
  exact residue_foldl_reduceStep _ (by decide) p

/-! ## Bytes are the residues -/

theorem degree_toPoly_poly (hp : poly.getLsbD 8 = true) : (toPoly poly).degree = 8 := by
  refine degree_eq_of_le_of_coeff_ne_zero ?_ (by simp [coeff_toPoly, hp])
  exact Order.le_of_lt_succ (degree_toPoly_lt poly)

theorem natDegree_toPoly_poly (hp : poly.getLsbD 8 = true) : (toPoly poly).natDegree = 8 :=
  natDegree_eq_of_degree_eq_some (degree_toPoly_poly hp)

theorem monic_toPoly_poly (hp : poly.getLsbD 8 = true) : (toPoly poly).Monic := by
  rw [Monic, leadingCoeff, natDegree_toPoly_poly hp, coeff_toPoly, if_pos hp]

theorem residue_injective (hp : poly.getLsbD 8 = true) :
    Function.Injective (residue poly : Byte → AdjoinRoot (toPoly poly)) := by
  intro a b h
  have hd : toPoly poly ∣ toPoly (a ^^^ b) := by
    rw [toPoly_xor, ← CharTwo.sub_eq_add]
    exact AdjoinRoot.mk_eq_mk.1 h
  have h0 : toPoly (a ^^^ b) = toPoly 0#8 := by
    rw [toPoly_zero]
    exact eq_zero_of_dvd_of_degree_lt hd (by rw [degree_toPoly_poly hp]; exact degree_toPoly_lt _)
  exact BitVec.xor_eq_zero_iff.1 (toPoly_injective h0)

theorem residue_surjective (hp : poly.getLsbD 8 = true) :
    Function.Surjective (residue poly : Byte → AdjoinRoot (toPoly poly)) := by
  intro x
  obtain ⟨P, rfl⟩ := AdjoinRoot.mk_surjective x
  have hm := monic_toPoly_poly hp
  have hd : (P %ₘ toPoly poly).degree < (8 : Nat) := (degree_modByMonic_lt P hm).trans_eq (degree_toPoly_poly hp)
  obtain ⟨a, ha⟩ := exists_toPoly_eq hd
  refine ⟨a, ?_⟩
  rw [residue, ha]
  exact AdjoinRoot.mk_leftInverse hm (AdjoinRoot.mk _ P)

/-- The multiples of `POLY` of 15 bits are the `q · POLY`. -/
theorem exists_timesPoly_eq (hp : poly.getLsbD 8 = true) {d : Poly15} (h : toPoly poly ∣ toPoly d) :
    ∃ q, timesPoly poly q = d := by
  obtain ⟨Q, hQ⟩ := h
  have hdeg : (8 : WithBot Nat) + Q.degree < 8 + 7 := by
    rw [← degree_toPoly_poly hp, ← degree_mul, ← hQ, degree_toPoly_poly hp]
    exact degree_toPoly_lt d
  obtain ⟨q, rfl⟩ := exists_toPoly_eq (w := 7) (lt_of_add_lt_add_left hdeg)
  exact ⟨q, toPoly_injective ((toPoly_timesPoly poly q).trans hQ.symm)⟩

/-- Settles O20: the multiple of `POLY` by the division of polynomials, the uniqueness by `residue_injective`. -/
theorem gfReduceIsTheRemainder : Obligations.GfReduceIsTheRemainder := by
  intro poly hp p
  constructor
  · have hd : toPoly poly ∣ toPoly (p ^^^ (gfReduce poly p).setWidth 15) := by
      rw [toPoly_xor, toPoly_setWidth_of_le _ (by decide), ← CharTwo.sub_eq_add]
      exact AdjoinRoot.mk_eq_mk.1 (residue_gfReduce hp p).symm
    obtain ⟨q, hq⟩ := exists_timesPoly_eq hp hd
    exact ⟨q, by rw [hq, BitVec.xor_assoc, BitVec.xor_self, BitVec.xor_zero]⟩
  · rintro r ⟨q, rfl⟩
    refine residue_injective hp ?_
    rw [residue_gfReduce hp, residue, residue, toPoly_xor, toPoly_timesPoly, toPoly_setWidth_of_le r (by decide)]
    simp

end Sys2Proof.Machine
end

section
/-! PROOFS. The list of admissible polynomials as the result of a sieve, and their irreducibility
(spec/40_field_alu.md R44). -/

namespace Sys2Proof.Machine

open Polynomial

variable {w : Nat} {poly : Poly9}

/-! ## The sieve -/

/-- The carry-less products of degree 8 with a first factor of degree 1 to 4, as numbers. -/
def degreeEightProducts : List Nat :=
  [1, 2, 3, 4].flatMap fun d => (List.range' (2 ^ d) (2 ^ d)).flatMap fun a =>
    (List.range' (2 ^ (8 - d)) (2 ^ (8 - d))).map fun b => (clmul (BitVec.ofNat 8 a) (BitVec.ofNat 8 b)).toNat

/-- A list of numbers as a set of bits: what two lists hold is compared by comparing two numbers. -/
def bitmap (l : List Nat) : Nat := l.foldr (fun k m => m ||| 1 <<< k) 0

theorem testBit_bitmap (l : List Nat) (k : Nat) : (bitmap l).testBit k = decide (k ∈ l) := by
  induction l with
  | nil => simp [bitmap]
  | cons j l ih =>
    have step : bitmap (j :: l) = bitmap l ||| 1 <<< j := rfl
    rw [step, Nat.testBit_or, ih, Nat.one_shiftLeft, Nat.testBit_two_pow]
    simp [Bool.or_comm, eq_comm]

/-- Of the numbers with the top bit 8, the products and the listed values are two complementary parts. -/
theorem bitmap_products_xor_listed : bitmap degreeEightProducts ^^^ bitmap (Config.admissiblePolys.map BitVec.toNat) =
    bitmap (List.range' 256 256) := by decide +kernel

theorem top_bit_iff (poly : Poly9) : poly.getLsbD 8 = true ↔ poly.toNat ∈ List.range' 256 256 := by
  have hlt := poly.isLt
  rw [BitVec.getLsbD, Nat.testBit_eq_decide_div_mod_eq, List.mem_range'_1, decide_eq_true_eq]
  omega

theorem mem_admissiblePolys_iff (poly : Poly9) :
    poly ∈ Config.admissiblePolys ↔ poly.getLsbD 8 = true ∧ poly.toNat ∉ degreeEightProducts := by
  have h := congrArg (·.testBit poly.toNat) bitmap_products_xor_listed
  simp only [Nat.testBit_xor, testBit_bitmap, List.mem_map_of_injective BitVec.toNat_injective] at h
  rw [top_bit_iff]
  constructor
  · intro hm
    have top := (top_bit_iff poly).1 (Config.top_bit_of_mem poly hm)
    exact ⟨top, fun hp => by simp [hp, hm, top] at h⟩
  · rintro ⟨top, hp⟩
    simpa [hp, top] using h

/-! ## Irreducibility -/

/-- A nonzero bit vector lies between two powers of two by the degree of its polynomial. -/
theorem toNat_mem_range'_natDegree {p : BitVec w} (h : toPoly p ≠ 0) :
    p.toNat ∈ List.range' (2 ^ (toPoly p).natDegree) (2 ^ (toPoly p).natDegree) := by
  rw [List.mem_range'_1, ← two_mul, ← pow_succ']
  constructor
  · refine Nat.ge_two_pow_of_testBit ?_
    have lead := leadingCoeff_ne_zero.2 h
    rw [leadingCoeff, coeff_toPoly] at lead
    rw [← BitVec.getLsbD]
    simpa using lead
  · refine Nat.lt_pow_two_of_testBit _ fun j hj => ?_
    have high := coeff_eq_zero_of_natDegree_lt hj
    rw [coeff_toPoly] at high
    rw [← BitVec.getLsbD]
    simpa using high

/-- A product of degree 8 with a first factor of degree 1 to 4 is one that the sieve strikes out. -/
theorem toNat_mem_degreeEightProducts {a b : Byte} (h : toPoly poly = toPoly a * toPoly b)
    (hne : toPoly a * toPoly b ≠ 0) (hd : (toPoly a).natDegree + (toPoly b).natDegree = 8)
    (ha : (toPoly a).natDegree ∈ Finset.Ioc 0 4) : poly.toNat ∈ degreeEightProducts := by
  obtain ⟨ha0, hb0⟩ := mul_ne_zero_iff.1 hne
  rw [Finset.mem_Ioc] at ha
  have same : clmul a b = poly.setWidth 15 :=
    toPoly_injective (by rw [toPoly_clmul, toPoly_setWidth_of_le _ (by decide), h])
  have hb := toNat_mem_range'_natDegree hb0
  rw [show (toPoly b).natDegree = 8 - (toPoly a).natDegree by omega] at hb
  simp only [degreeEightProducts, List.mem_flatMap, List.mem_map]
  refine ⟨_, ?_, _, toNat_mem_range'_natDegree ha0, _, hb, ?_⟩
  · simp only [List.mem_cons, List.not_mem_nil, or_false]
    omega
  · rw [BitVec.ofNat_toNat, BitVec.ofNat_toNat, BitVec.setWidth_eq, BitVec.setWidth_eq, same,
      BitVec.toNat_setWidth_of_le (by decide)]

theorem irreducible_of_mem (h : poly ∈ Config.admissiblePolys) : Irreducible (toPoly poly) := by
  obtain ⟨hp, hs⟩ := (mem_admissiblePolys_iff poly).1 h
  have hdeg := natDegree_toPoly_poly hp
  have hne : toPoly poly ≠ 1 := fun h1 => by simp [h1] at hdeg
  rw [(monic_toPoly_poly hp).irreducible_iff_lt_natDegree_lt hne, hdeg]
  rintro q - hq ⟨r, hr⟩
  have h0 : q * r ≠ 0 := hr ▸ (monic_toPoly_poly hp).ne_zero
  obtain ⟨hq0, hr0⟩ := mul_ne_zero_iff.1 h0
  rw [hr, natDegree_mul hq0 hr0] at hdeg
  have bounds := Finset.mem_Ioc.1 hq
  obtain ⟨a, rfl⟩ := exists_toPoly_eq (w := 8) ((natDegree_lt_iff_degree_lt hq0).1 (by omega))
  obtain ⟨b, rfl⟩ := exists_toPoly_eq (w := 8) ((natDegree_lt_iff_degree_lt hr0).1 (by omega))
  exact hs (toNat_mem_degreeEightProducts hr h0 hdeg hq)

/-- A byte of at least 2 has degree 1 or more, and units have degree 0. -/
theorem not_isUnit_toPoly {a : Byte} (h : 2 ≤ a.toNat) : ¬ IsUnit (toPoly a) := by
  intro hu
  have range := toNat_mem_range'_natDegree hu.ne_zero
  rw [natDegree_eq_zero_of_isUnit hu, List.mem_range'_1] at range
  omega

/-- Settles O21: a product of two bytes of degree 1 or more is reducible, and every unlisted polynomial is one that the
sieve strikes out. -/
theorem admissiblePolysAreTheIrreducibleOnes : Obligations.AdmissiblePolysAreTheIrreducibleOnes := by
  intro poly
  constructor
  · intro h
    refine ⟨Config.top_bit_of_mem poly h, fun a b ha hb hab => ?_⟩
    have factors : toPoly poly = toPoly a * toPoly b := by
      rw [← toPoly_clmul, hab, toPoly_setWidth_of_le _ (by decide)]
    obtain hu | hu := (irreducible_of_mem h).isUnit_or_isUnit factors
    · exact not_isUnit_toPoly ha hu
    · exact not_isUnit_toPoly hb hu
  · rintro ⟨hp, hs⟩
    refine (mem_admissiblePolys_iff poly).2 ⟨hp, fun hmem => ?_⟩
    simp only [degreeEightProducts, List.mem_flatMap, List.mem_map, List.mem_range'_1] at hmem
    obtain ⟨d, hd, a, ha, b, hb, hab⟩ := hmem
    have small : 2 ≤ a ∧ a < 256 ∧ 2 ≤ b ∧ b < 256 := by
      simp only [List.mem_cons, List.not_mem_nil, or_false] at hd
      obtain rfl | rfl | rfl | rfl := hd <;> omega
    refine hs (BitVec.ofNat 8 a) (BitVec.ofNat 8 b) ?_ ?_ (BitVec.eq_of_toNat_eq ?_)
    · rw [BitVec.toNat_ofNat]
      omega
    · rw [BitVec.toNat_ofNat]
      omega
    · rw [hab, BitVec.toNat_setWidth_of_le (by decide)]

end Sys2Proof.Machine
end

section
/-! PROOFS. What `residue` makes of each operation on bytes (spec/40_field_alu.md R40 to R49): a law of the quotient
ring, which is a field under an admissible `POLY`, becomes a law of the bytes. -/

namespace Sys2Proof.Machine

open Polynomial

variable {poly : Poly9}

/-! ## The operations on residues -/

theorem residue_zero : residue poly (0x00 : Byte) = 0 := by simp [residue]

theorem residue_one : residue poly (0x01 : Byte) = 1 := by simp [residue]

theorem residue_gfAdd (a b : Byte) : residue poly (gfAdd a b) = residue poly a + residue poly b := by
  rw [residue, gfAdd, toPoly_xor, map_add, residue, residue]

theorem residue_gfMul (hp : poly.getLsbD 8 = true) (a b : Byte) :
    residue poly (gfMul poly a b) = residue poly a * residue poly b := by
  rw [gfMul, residue_gfReduce hp, residue, toPoly_clmul, map_mul, residue, residue]

theorem residue_gfPow (hp : poly.getLsbD 8 = true) (a : Byte) (e : Nat) :
    residue poly (gfPow poly a e) = residue poly a ^ e := by
  induction e with
  | zero => rw [gfPow, residue_one, pow_zero]
  | succ e ih => rw [gfPow, residue_gfMul hp, ih, pow_succ]

theorem residue_inj (hp : poly.getLsbD 8 = true) {a b : Byte} : residue poly a = residue poly b ↔ a = b :=
  (residue_injective hp).eq_iff

theorem residue_eq_zero_iff (hp : poly.getLsbD 8 = true) {a : Byte} : residue poly a = 0 ↔ a = 0x00 := by
  rw [← residue_zero, residue_inj hp]

/-! ## The bit-serial loop -/

/-- The doubling of R47 with the shifted-out bit 8 kept, until `POLY` cancels it. -/
def wideDouble (poly : Poly9) (a : Byte) : Poly9 :=
  if a.getLsbD 7 then (a.setWidth 9 <<< 1) ^^^ poly else a.setWidth 9 <<< 1

theorem setWidth_wideDouble (poly : Poly9) (a : Byte) : (wideDouble poly a).setWidth 8 = gfDouble poly a := by
  rw [wideDouble, gfDouble]
  split_ifs <;> ext i <;> simp

theorem getLsbD_wideDouble (hp : poly.getLsbD 8 = true) (a : Byte) {j : Nat} (hj : 8 ≤ j) :
    (wideDouble poly a).getLsbD j = false := by
  obtain rfl | hlt := hj.eq_or_lt
  · have shifted : (a.setWidth 9 <<< 1).getLsbD 8 = a.getLsbD 7 := by simp
    rw [wideDouble]
    split_ifs with h
    · rw [BitVec.getLsbD_xor, shifted, h, hp, Bool.xor_self]
    · rw [shifted]
      simpa using h
  · exact BitVec.getLsbD_of_ge _ _ hlt

theorem toPoly_wideDouble (poly : Poly9) (a : Byte) :
    toPoly (wideDouble poly a) = toPoly a * X + if a.getLsbD 7 then toPoly poly else 0 := by
  rw [wideDouble]
  split_ifs
  · rw [toPoly_xor, toPoly_shiftLeft a (by decide), pow_one]
  · rw [toPoly_shiftLeft a (by decide), pow_one, add_zero]

/-- Doubling multiplies by `X` modulo `POLY`. -/
theorem residue_gfDouble (hp : poly.getLsbD 8 = true) (a : Byte) :
    residue poly (gfDouble poly a) = residue poly a * AdjoinRoot.root (toPoly poly) := by
  have cleared : ∀ j, 8 ≤ j → (wideDouble poly a).getLsbD j = false := fun j => getLsbD_wideDouble hp a
  rw [residue, ← setWidth_wideDouble, toPoly_setWidth _ cleared, toPoly_wideDouble, map_add, map_mul, AdjoinRoot.mk_X,
    residue, add_eq_left]
  split_ifs
  · exact AdjoinRoot.mk_self
  · exact map_zero _

/-- The two registers after `n` turns. -/
def serialTurns (poly : Poly9) (a b : Byte) (n : Nat) : Byte × Byte :=
  (List.range n).foldl (serialStep poly b) (0, a)

theorem gfMulSerial_eq (poly : Poly9) (a b : Byte) : gfMulSerial poly a b = (serialTurns poly a b 8).1 := rfl

theorem serialTurns_succ (poly : Poly9) (a b : Byte) (n : Nat) :
    serialTurns poly a b (n + 1) = serialStep poly b (serialTurns poly a b n) n := by
  rw [serialTurns, List.range_succ, List.foldl_append]
  rfl

theorem residue_serialTurns_snd (hp : poly.getLsbD 8 = true) (a b : Byte) (n : Nat) :
    residue poly (serialTurns poly a b n).2 = residue poly a * AdjoinRoot.root (toPoly poly) ^ n := by
  induction n with
  | zero => rw [pow_zero, mul_one]; rfl
  | succ n ih => rw [serialTurns_succ, serialStep, residue_gfDouble hp, ih, mul_assoc, pow_succ]

/-- The first register collects the product with the low bits of `b`. -/
theorem residue_serialTurns_fst (hp : poly.getLsbD 8 = true) (a b : Byte) (n : Nat) :
    residue poly (serialTurns poly a b n).1 = residue poly a *
      AdjoinRoot.mk (toPoly poly) (∑ i ∈ Finset.range n, if b.getLsbD i then X ^ i else 0) := by
  induction n with
  | zero =>
    rw [Finset.sum_range_zero, map_zero, mul_zero]
    exact residue_zero
  | succ n ih =>
    rw [serialTurns_succ, serialStep, Finset.sum_range_succ, map_add, mul_add, ← ih]
    split_ifs
    · rw [map_pow, AdjoinRoot.mk_X, ← residue_serialTurns_snd hp a b n, residue, toPoly_xor, map_add, residue, residue]
    · rw [map_zero, mul_zero, add_zero]

/-- Settles O23: after eight turns the first register holds the residue of the product. -/
theorem serialMultiplierEqualsGfMul : Obligations.SerialMultiplierEqualsGfMul := by
  intro poly hp a b
  rw [← residue_inj hp, residue_gfMul hp, gfMulSerial_eq]
  exact residue_serialTurns_fst hp a b 8

end Sys2Proof.Machine
end

section
/-! PROOFS. The laws of `gf_mul`, powers, inverses, division and the tables under an admissible `POLY`
(spec/40_field_alu.md R41 to R52). -/

namespace Sys2Proof.Machine

variable {poly : Poly9} {gen : Byte}

/-! ## Addition and multiplication -/

/-- Settles O18, by the laws of the exclusive-or. -/
theorem gfAddLaws : Obligations.GfAddLaws := fun a b c =>
  ⟨BitVec.xor_comm a b, BitVec.xor_assoc a b c, BitVec.xor_self, BitVec.xor_zero⟩

theorem gfMul_comm (poly : Poly9) (a b : Byte) : gfMul poly a b = gfMul poly b a := by
  rw [gfMul, gfMul, clmul_comm]

theorem gfMul_assoc (hp : poly.getLsbD 8 = true) (a b c : Byte) :
    gfMul poly (gfMul poly a b) c = gfMul poly a (gfMul poly b c) := by
  simp only [← residue_inj hp, residue_gfMul hp, mul_assoc]

theorem gfMul_gfAdd (hp : poly.getLsbD 8 = true) (a b c : Byte) :
    gfMul poly a (gfAdd b c) = gfAdd (gfMul poly a b) (gfMul poly a c) := by
  simp only [← residue_inj hp, residue_gfMul hp, residue_gfAdd, mul_add]

theorem gfMul_zero (hp : poly.getLsbD 8 = true) (a : Byte) : gfMul poly a 0x00 = 0x00 := by
  rw [← residue_inj hp, residue_gfMul hp, residue_zero, mul_zero]

theorem zero_gfMul (hp : poly.getLsbD 8 = true) (a : Byte) : gfMul poly 0x00 a = 0x00 := by
  rw [gfMul_comm, gfMul_zero hp]

theorem gfMul_one (hp : poly.getLsbD 8 = true) (a : Byte) : gfMul poly a 0x01 = a := by
  rw [← residue_inj hp, residue_gfMul hp, residue_one, mul_one]

theorem one_gfMul (hp : poly.getLsbD 8 = true) (a : Byte) : gfMul poly 0x01 a = a := by
  rw [gfMul_comm, gfMul_one hp]

/-- The product of two nonzero bytes is nonzero, `POLY` being irreducible. -/
theorem gfMul_eq_zero (h : poly ∈ Config.admissiblePolys) {a b : Byte} (hab : gfMul poly a b = 0x00) :
    a = 0x00 ∨ b = 0x00 := by
  have hp := Config.top_bit_of_mem poly h
  have := Fact.mk (irreducible_of_mem h)
  rwa [← residue_eq_zero_iff hp, residue_gfMul hp, mul_eq_zero, residue_eq_zero_iff hp, residue_eq_zero_iff hp] at hab

/-- Settles O22, law by law. -/
theorem gfMulLaws : Obligations.GfMulLaws := by
  intro poly h a b c
  have hp := Config.top_bit_of_mem poly h
  exact ⟨gfMul_comm poly a b, gfMul_assoc hp a b c, gfMul_gfAdd hp a b c, gfMul_zero hp a, zero_gfMul hp a,
    gfMul_one hp a, gfMul_eq_zero h⟩

/-! ## Powers -/

/-- The nonzero bytes are the 255 nonzero elements of a finite field. -/
theorem gfPow_255 (h : poly ∈ Config.admissiblePolys) {a : Byte} (ha : a ≠ 0x00) : gfPow poly a 255 = 0x01 := by
  have hp := Config.top_bit_of_mem poly h
  have := Fact.mk (irreducible_of_mem h)
  let e := Equiv.ofBijective _ ⟨residue_injective hp, residue_surjective hp⟩
  let _ := Fintype.ofEquiv Byte e
  have card : Fintype.card (AdjoinRoot (toPoly poly)) = 256 := by
    rw [← Fintype.card_congr e, Fintype.card_congr BitVec.equivFin.toEquiv, Fintype.card_fin]
    decide
  have fermat := FiniteField.pow_card_sub_one_eq_one (residue poly a) (mt (residue_eq_zero_iff hp).1 ha)
  rwa [card, ← residue_gfPow hp, ← residue_one, residue_inj hp] at fermat

theorem gfPow_add (hp : poly.getLsbD 8 = true) (a : Byte) (i j : Nat) :
    gfPow poly a (i + j) = gfMul poly (gfPow poly a i) (gfPow poly a j) := by
  rw [← residue_inj hp, residue_gfMul hp, residue_gfPow hp, residue_gfPow hp, residue_gfPow hp, pow_add]

theorem gfPow_mod_255 (hp : poly.getLsbD 8 = true) {a : Byte} (ha : gfPow poly a 255 = 0x01) (e : Nat) :
    gfPow poly a (e % 255) = gfPow poly a e := by
  rw [← residue_inj hp, residue_gfPow hp, residue_one] at ha
  rw [← residue_inj hp, residue_gfPow hp, residue_gfPow hp, ← pow_eq_pow_mod e ha]

/-- Settles O24: the recursion is the definition's; the rest is the order of the group of the nonzero bytes. -/
theorem powersReduceModulo255 : Obligations.PowersReduceModulo255 := fun poly h _ =>
  ⟨rfl, fun _ => rfl, fun ha => ⟨gfPow_255 h ha, fun e =>
    (gfPow_mod_255 (Config.top_bit_of_mem poly h) (gfPow_255 h ha) e).symm⟩⟩

/-! ## Inverses -/

theorem gfInv_zero (poly : Poly9) : gfInv poly 0x00 = none := rfl

theorem gfInv_of_ne_zero (poly : Poly9) {a : Byte} (ha : a ≠ 0x00) : gfInv poly a = some (gfPow poly a 254) := if_neg ha

/-- The product with `a` is one exactly for the value of `gf_inv(a)`. -/
theorem gfInv_eq_some_iff (h : poly ∈ Config.admissiblePolys) {a b : Byte} :
    gfInv poly a = some b ↔ gfMul poly a b = 0x01 := by
  have hp := Config.top_bit_of_mem poly h
  have := Fact.mk (irreducible_of_mem h)
  by_cases ha : a = 0x00
  · rw [ha, gfInv_zero, zero_gfMul hp]
    simp
  · have inverse : residue poly a * residue poly (gfPow poly a 254) = 1 := by
      rw [residue_gfPow hp, ← pow_succ', ← residue_gfPow hp, gfPow_255 h ha, residue_one]
    rw [gfInv_of_ne_zero poly ha, Option.some_inj, ← residue_inj hp, ← residue_inj hp, residue_gfMul hp, residue_one,
      ← inverse, mul_right_inj' (mt (residue_eq_zero_iff hp).1 ha), eq_comm]

theorem exists_gfInv_eq_some (h : poly ∈ Config.admissiblePolys) {a : Byte} (ha : a ≠ 0x00) :
    ∃ b, gfInv poly a = some b ∧ gfMul poly a b = 0x01 :=
  ⟨_, gfInv_of_ne_zero poly ha, (gfInv_eq_some_iff h).1 (gfInv_of_ne_zero poly ha)⟩

/-! ## The tables -/

/-- The residue of a primitive element is a primitive root of unity of the order 255. -/
theorem isPrimitiveRoot_residue (hp : poly.getLsbD 8 = true) (hg : IsPrimitive poly gen) :
    IsPrimitiveRoot (residue poly gen) 255 := by
  obtain ⟨one, ne_one⟩ := hg
  simp only [Ne, ← residue_inj hp, residue_gfPow hp, residue_one] at one ne_one
  exact .mk_of_lt _ (by decide) one ne_one

/-- Every nonzero byte has a logarithm. -/
theorem exists_gfLog_eq_some (h : poly ∈ Config.admissiblePolys) (hg : IsPrimitive poly gen) {a : Byte}
    (ha : a ≠ 0x00) : ∃ e < 255, gfLog poly gen a = some e ∧ gfExp poly gen e = a := by
  have hp := Config.top_bit_of_mem poly h
  have := Fact.mk (irreducible_of_mem h)
  have root : residue poly a ^ 255 = 1 := by rw [← residue_gfPow hp, gfPow_255 h ha, residue_one]
  obtain ⟨i, hi, power⟩ := (isPrimitiveRoot_residue hp hg).eq_pow_of_pow_eq_one root
  rw [← residue_gfPow hp, residue_inj hp] at power
  cases hl : gfLog poly gen a with
  | none =>
    have missing := List.find?_eq_none.1 hl i (List.mem_range.2 hi)
    exact absurd (beq_iff_eq.2 power) missing
  | some e =>
    rw [gfLog] at hl
    exact ⟨e, List.mem_range.1 (List.mem_of_find?_eq_some hl), rfl, by simpa using List.find?_some hl⟩

/-- A product of powers of `GEN`, with the exponents added modulo 255. -/
theorem gfExp_add_mod (hp : poly.getLsbD 8 = true) (hg : IsPrimitive poly gen) (i j : Nat) :
    gfExp poly gen ((i + j) % 255) = gfMul poly (gfExp poly gen i) (gfExp poly gen j) := by
  rw [gfExp, gfPow_mod_255 hp hg.1, gfPow_add hp, gfExp, gfExp]

theorem gfInvTable_eq (h : poly ∈ Config.admissiblePolys) (hg : IsPrimitive poly gen) (a : Byte) :
    gfInvTable poly gen a = gfInv poly a := by
  have hp := Config.top_bit_of_mem poly h
  by_cases ha : a = 0x00
  · rw [gfInvTable, gfInv, if_pos ha, if_pos ha]
  · obtain ⟨e, he, hlog, hexp⟩ := exists_gfLog_eq_some h hg ha
    have product : gfMul poly a (gfExp poly gen ((255 - e) % 255)) = 0x01 := by
      have exponent : (e + (255 - e) % 255) % 255 = 0 := by omega
      rw [← hexp, ← gfExp_add_mod hp hg, exponent]
      rfl
    rw [gfInvTable, if_neg ha, hlog, (gfInv_eq_some_iff h).2 product, Option.map_some]

/-- Settles O27: the logarithms of two nonzero bytes exist, and `exp` turns their sum into the product. -/
theorem tableMultiplierEqualsGfMul : Obligations.TableMultiplierEqualsGfMul := by
  intro poly h gen hg a b
  have hp := Config.top_bit_of_mem poly h
  rw [gfMulTable]
  split_ifs with hz
  · obtain rfl | rfl := hz
    · rw [zero_gfMul hp]
    · rw [gfMul_zero hp]
  · obtain ⟨ha, hb⟩ := not_or.1 hz
    obtain ⟨i, -, hi, rfl⟩ := exists_gfLog_eq_some h hg ha
    obtain ⟨j, -, hj, rfl⟩ := exists_gfLog_eq_some h hg hb
    rw [hi, hj]
    exact congrArg some (gfExp_add_mod hp hg i j)

/-- Settles O25: `gfInv_eq_some_iff` characterises the value, and the product is commutative. -/
theorem inverseIsUniqueAndUndefinedAtZero : Obligations.InverseIsUniqueAndUndefinedAtZero := by
  intro poly h
  refine ⟨gfInv_zero poly, fun a ha => ?_⟩
  obtain ⟨b, hb, product⟩ := exists_gfInv_eq_some h ha
  refine ⟨b, hb, fun c => ?_, ?_, ?_, fun gen hg => ?_⟩
  · rw [← gfInv_eq_some_iff h, hb, Option.some_inj, eq_comm]
  · rw [gfInv_of_ne_zero poly ha, Option.some_inj] at hb
    exact hb.symm
  · rw [gfInv_eq_some_iff h, gfMul_comm, product]
  · rw [gfInvTable_eq h hg, hb]

/-! ## Division -/

theorem gfDiv_of_gfInv {b i : Byte} (hi : gfInv poly b = some i) (a : Byte) :
    gfDiv poly a b = some (gfMul poly a i) := by
  rw [gfDiv, hi, Option.map_some]

theorem gfDiv_zero (poly : Poly9) (a : Byte) : gfDiv poly a 0x00 = none := rfl

/-- Settles O26, by the inverse of the divisor. -/
theorem divisionLaws : Obligations.DivisionLaws := by
  intro poly h a b
  have hp := Config.top_bit_of_mem poly h
  refine ⟨gfDiv_zero poly a, fun hb => ?_⟩
  obtain ⟨i, hi, product⟩ := exists_gfInv_eq_some h hb
  have one : gfInv poly 0x01 = some 0x01 := (gfInv_eq_some_iff h).2 (gfMul_one hp 0x01)
  refine ⟨⟨i, hi, gfDiv_of_gfInv hi a, ?_, ?_⟩, ?_, ?_, ?_⟩
  · rw [gfMul_assoc hp, gfMul_comm poly i b, product, gfMul_one hp]
  · rw [gfDiv_of_gfInv hi, one_gfMul hp]
  · rw [gfDiv_of_gfInv hi, zero_gfMul hp]
  · rw [gfDiv_of_gfInv one, gfMul_one hp]
  · rw [gfDiv_of_gfInv hi, product]

end Sys2Proof.Machine
end

section
/-! PROOFS. The commands of the field ALU (spec/40_field_alu.md R54 to R57). -/

namespace Sys2Proof.Machine

variable {s : State}

theorem exec_gfInv_of_ready (hr : s.run = .ready) (a : Byte) :
    exec (.gfInv a) s = respondPartial (gfInv Config.poly a) s := whenReady_of_ready hr

theorem exec_gfDiv_of_ready (hr : s.run = .ready) (a b : Byte) :
    exec (.gfDiv a b) s = respondPartial (gfDiv Config.poly a b) s := whenReady_of_ready hr

/-- Settles O28: the READY core answers `gf_add`. -/
theorem gfAddAnswersXor : Obligations.GfAddAnswersXor := fun _ _ _ hr => whenReady_of_ready hr

/-- Settles O29: the READY core answers `gf_mul`. -/
theorem gfMulAnswersProduct : Obligations.GfMulAnswersProduct := fun _ _ _ hr => whenReady_of_ready hr

/-- Settles O30: the inverse of a nonzero byte exists, and a missing value is `DomainError`. -/
theorem gfInvAnswersInverseOrHalts : Obligations.GfInvAnswersInverseOrHalts := by
  intro a s hr
  rw [exec_gfInv_of_ready hr]
  constructor
  · intro ha
    obtain ⟨b, hb, product⟩ := exists_gfInv_eq_some Config.poly_mem ha
    exact ⟨b, hb, product, by rw [hb, respondPartial_some]; rfl⟩
  · rintro rfl
    rw [gfInv_zero, respondPartial_none, raise_domainError]
    rfl

/-- Settles O31: the quotient by a nonzero byte is the product with its inverse, and a missing value is
`DomainError`. -/
theorem gfDivAnswersQuotientOrHalts : Obligations.GfDivAnswersQuotientOrHalts := by
  intro a b s hr
  rw [exec_gfDiv_of_ready hr]
  constructor
  · intro hb
    obtain ⟨i, hi, product⟩ := exists_gfInv_eq_some Config.poly_mem hb
    exact ⟨i, product, by rw [gfDiv_of_gfInv hi, respondPartial_some]; rfl⟩
  · rintro rfl
    rw [gfDiv_zero, respondPartial_none, raise_domainError]
    rfl

end Sys2Proof.Machine
end

section
/-! PROOFS. Horner's scheme and the power sum (spec/41_poly_eval.md R59 to R61). Only bit 8 of `POLY` is needed. -/

namespace Sys2Proof.Machine

variable {poly : Poly9}

/-! ## Addition, in the forms the sums need -/

theorem gfAdd_comm (a b : Byte) : gfAdd a b = gfAdd b a := BitVec.xor_comm a b

theorem gfAdd_zero (a : Byte) : gfAdd a 0x00 = a := BitVec.xor_zero

theorem zero_gfAdd (a : Byte) : gfAdd 0x00 a = a := BitVec.zero_xor

theorem gfAdd_gfMul (hp : poly.getLsbD 8 = true) (a b c : Byte) :
    gfMul poly (gfAdd a b) c = gfAdd (gfMul poly a c) (gfMul poly b c) := by
  rw [gfMul_comm, gfMul_gfAdd hp, gfMul_comm poly c a, gfMul_comm poly c b]

/-! ## The power sum -/

/-- One more in every exponent is one more factor `x`. -/
theorem powerSumFrom_succ (hp : poly.getLsbD 8 = true) (x : Byte) (j : Nat) (cs : List Byte) :
    powerSumFrom poly x (j + 1) cs = gfMul poly (powerSumFrom poly x j cs) x := by
  induction cs generalizing j with
  | nil => exact (zero_gfMul hp x).symm
  | cons c cs ih => rw [powerSumFrom, powerSumFrom, gfAdd_gfMul hp, ih (j + 1), gfPow, gfMul_assoc hp]

theorem polyValue_nil (poly : Poly9) (x : Byte) : polyValue poly [] x = 0x00 := rfl

/-- The constant term set apart: the recursion that Horner's scheme follows. -/
theorem polyValue_cons (hp : poly.getLsbD 8 = true) (c : Byte) (cs : List Byte) (x : Byte) :
    polyValue poly (c :: cs) x = gfAdd (gfMul poly (polyValue poly cs x) x) c := by
  rw [polyValue, powerSumFrom, powerSumFrom_succ hp, gfPow, gfMul_one hp, gfAdd_comm, polyValue]

/-! ## Horner's scheme -/

theorem horner_eq_polyValue (hp : poly.getLsbD 8 = true) (x c0 : Byte) (cs : List Byte) :
    horner poly x c0 cs = polyValue poly (c0 :: cs) x := by
  induction cs generalizing c0 with
  | nil => rw [horner, polyValue_cons hp, polyValue_nil, zero_gfMul hp, zero_gfAdd]
  | cons c1 cs ih => rw [horner, ih c1, polyValue_cons hp c0]

/-- The value at zero is the constant term. -/
theorem horner_zero (hp : poly.getLsbD 8 = true) (c0 : Byte) (cs : List Byte) : horner poly 0x00 c0 cs = c0 := by
  cases cs with
  | nil => rfl
  | cons c1 cs => rw [horner, gfMul_zero hp, zero_gfAdd]

/-- The value at one is the sum of the coefficients. -/
theorem horner_one (hp : poly.getLsbD 8 = true) (c0 : Byte) (cs : List Byte) :
    horner poly 0x01 c0 cs = (c0 :: cs).foldr gfAdd 0x00 := by
  induction cs generalizing c0 with
  | nil => exact (gfAdd_zero c0).symm
  | cons c1 cs ih => rw [horner, gfMul_one hp, ih c1, List.foldr_cons (a := c0), gfAdd_comm]

theorem horner_append_zero (hp : poly.getLsbD 8 = true) (x c0 : Byte) (cs : List Byte) :
    horner poly x c0 (cs ++ [0x00]) = horner poly x c0 cs := by
  induction cs generalizing c0 with
  | nil => simp only [List.nil_append, horner, zero_gfMul hp, zero_gfAdd]
  | cons c1 cs ih => rw [List.cons_append, horner, horner, ih c1]

/-- Settles O32: both sides of the first clause have the recursion of `polyValue_cons`. -/
theorem hornerIsThePolynomialValue : Obligations.HornerIsThePolynomialValue := by
  intro poly h c0 cs x
  have hp := Config.top_bit_of_mem poly h
  exact ⟨horner_eq_polyValue hp x c0 cs, horner_zero hp c0 cs, horner_one hp c0 cs, horner_append_zero hp x c0 cs⟩

end Sys2Proof.Machine
end

section
/-! PROOFS. The commands of the polynomial evaluator (spec/41_poly_eval.md R62 to R64). -/

namespace Sys2Proof.Machine

variable {s : State}

/-- Settles O33: the READY core clears the coefficients and answers. -/
theorem peClrEmptiesTheCoefficients : Obligations.PeClrEmptiesTheCoefficients := fun _ hr => whenReady_of_ready hr

/-! ## `PE.PUSH` -/

theorem exec_pePush_of_ready (hr : s.run = .ready) (c : Byte) :
    exec (.pePush c) s =
      if 255 ≤ s.clen then raise .invalidParameters s else respondOk 0x00 (pushCoef c s) :=
  whenReady_of_ready hr

/-- The pushed coefficient stands at the position `CLEN` had. -/
@[simp] theorem pushCoef_coefAt (c : Byte) (s : State) : (pushCoef c s).coefAt s.clen = some c :=
  List.getElem?_concat_length

/-- Settles O34: the capacity test sends the two cases to the push and to the fault. -/
theorem pePushAppendsTheCoefficient : Obligations.PePushAppendsTheCoefficient := by
  intro c s hr
  rw [exec_pePush_of_ready hr]
  constructor
  · intro below
    rw [if_neg (Nat.not_le.2 below)]
    exact ⟨_, rfl, rfl, pushCoef_clen s c, pushCoef_coefAt c s⟩
  · intro full
    rw [if_pos full.ge, raise_of_ne s (e := .invalidParameters) nofun]
    rfl

/-! ## `PE.EVAL` -/

theorem exec_peEval_of_empty (hr : s.run = .ready) (hc : s.coef = []) (x : Byte) :
    exec (.peEval x) s = raise .invalidParameters s := by
  rw [exec, execPeEval, whenReady_of_ready hr, hc]

theorem exec_peEval_of_cons (hr : s.run = .ready) {c0 : Byte} {cs : List Byte} (hc : s.coef = c0 :: cs) (x : Byte) :
    exec (.peEval x) s = if x = 0x00 then raise .reservedIndex s else respondOk (horner Config.poly x c0 cs) s := by
  rw [exec, execPeEval, whenReady_of_ready hr, hc]

/-- Settles O35: the buffer's two shapes, and for a non-empty one the test of the point. -/
theorem peEvalAnswersThePolynomialValue : Obligations.PeEvalAnswersThePolynomialValue := by
  intro x s hr
  refine ⟨fun c0 cs hc hx => ?_, fun hl => ?_, fun hl hx => ?_⟩
  · rw [exec_peEval_of_cons hr hc, if_neg hx]
    rfl
  · rw [exec_peEval_of_empty hr (List.eq_nil_of_length_eq_zero hl), raise_of_ne s (e := .invalidParameters) nofun]
    rfl
  · obtain ⟨c0, cs, hc⟩ := List.exists_cons_of_ne_nil (mt List.length_eq_zero_iff.2 hl)
    rw [exec_peEval_of_cons hr hc, if_pos hx, raise_of_ne s (e := .reservedIndex) nofun]
    rfl

end Sys2Proof.Machine
end

section
/-! PROOFS. Where `lagrange0` has a value (spec/42_interp.md R65, R66), for every 9-bit `POLY`. -/

namespace Sys2Proof.Machine

variable {poly : Poly9} {pts : List (Byte × Byte)}

/-! ## The two loops -/

/-- A zero divisor is a repeated index. -/
theorem gfAdd_eq_zero_iff {a b : Byte} : gfAdd a b = 0x00 ↔ a = b := BitVec.xor_eq_zero_iff

theorem exists_gfDiv_eq_some (poly : Poly9) (a : Byte) {b : Byte} (hb : b ≠ 0x00) : ∃ q, gfDiv poly a b = some q :=
  ⟨_, gfDiv_of_gfInv (gfInv_of_ne_zero poly hb) a⟩

theorem lagrangeTerm_nil (poly : Poly9) (xi : Byte) (i : Nat) (term : Byte) :
    lagrangeTerm poly xi i [] term = some term := rfl

/-- The point's own position is passed over. -/
theorem lagrangeTerm_cons_self (poly : Poly9) (xi xj : Byte) (i : Nat) (rest : List (Byte × Nat)) (term : Byte) :
    lagrangeTerm poly xi i ((xj, i) :: rest) term = lagrangeTerm poly xi i rest term := if_pos rfl

theorem lagrangeTerm_cons_of_ne {i j : Nat} (hj : j ≠ i) (xi xj : Byte) (rest : List (Byte × Nat)) (term : Byte) :
    lagrangeTerm poly xi i ((xj, j) :: rest) term =
      (gfDiv poly xj (gfAdd xj xi)).bind fun f => lagrangeTerm poly xi i rest (gfMul poly term f) := by
  rw [lagrangeTerm, if_neg hj]
  cases gfDiv poly xj (gfAdd xj xi) <;> rfl

theorem lagrangeSum_cons (poly : Poly9) (xs : List (Byte × Nat)) (xi yi : Byte) (i : Nat)
    (rest : List ((Byte × Byte) × Nat)) (sum : Byte) :
    lagrangeSum poly xs (((xi, yi), i) :: rest) sum =
      (lagrangeTerm poly xi i xs yi).bind fun term => lagrangeSum poly xs rest (gfAdd sum term) := by
  rw [lagrangeSum]
  cases lagrangeTerm poly xi i xs yi <;> rfl

/-! ## Where they have a value -/

/-- The inner loop has a value exactly when no other position holds the point's index. -/
theorem exists_lagrangeTerm_eq_some_iff (xi : Byte) (i : Nat) (l : List (Byte × Nat)) (term : Byte) :
    (∃ v, lagrangeTerm poly xi i l term = some v) ↔ ∀ p ∈ l, p.1 = xi → p.2 = i := by
  induction l generalizing term with
  | nil => simp [lagrangeTerm_nil]
  | cons p rest ih =>
    obtain ⟨xj, j⟩ := p
    rw [List.forall_mem_cons]
    by_cases hj : j = i
    · subst hj
      rw [lagrangeTerm_cons_self, ih]
      simp
    · rw [lagrangeTerm_cons_of_ne hj]
      by_cases hx : xj = xi
      · rw [gfAdd_eq_zero_iff.2 hx, gfDiv_zero]
        simp [hx, hj]
      · obtain ⟨f, hf⟩ := exists_gfDiv_eq_some poly xj (mt gfAdd_eq_zero_iff.1 hx)
        rw [hf, Option.bind_some, ih]
        simp [hx]

/-- The outer loop has a value exactly when each of its inner loops has one. -/
theorem exists_lagrangeSum_eq_some_iff (xs : List (Byte × Nat)) (l : List ((Byte × Byte) × Nat)) (sum : Byte) :
    (∃ v, lagrangeSum poly xs l sum = some v) ↔ ∀ q ∈ l, ∀ p ∈ xs, p.1 = q.1.1 → p.2 = q.2 := by
  induction l generalizing sum with
  | nil => simp [lagrangeSum]
  | cons q rest ih =>
    obtain ⟨⟨xi, yi⟩, i⟩ := q
    rw [List.forall_mem_cons, lagrangeSum_cons, ← exists_lagrangeTerm_eq_some_iff (poly := poly) xi i xs yi]
    cases lagrangeTerm poly xi i xs yi with
    | none => simp
    | some term => simp [ih]

/-- A list has no duplicate exactly when each element stands at one position. -/
theorem nodup_iff_zipIdx {α : Type} (xs : List α) :
    xs.Nodup ↔ ∀ q ∈ xs.zipIdx, ∀ p ∈ xs.zipIdx, p.1 = q.1 → p.2 = q.2 := by
  have positions : xs.zipIdx.Nodup := (List.nodup_zipIdx_map_snd xs).of_map
  conv_lhs => rw [← List.zipIdx_map_fst 0 xs]
  rw [List.nodup_map_iff_inj_on positions]
  exact ⟨fun h q hq p hp e => congrArg Prod.snd (h p hp q hq e), fun h p hp q hq e => Prod.ext e (h q hq p hp e)⟩

/-- In a list without duplicates, elements and positions tell the same entries apart. -/
theorem zipIdx_snd_eq_iff {α : Type} {xs : List α} (hn : xs.Nodup) :
    ∀ q ∈ xs.zipIdx, ∀ p ∈ xs.zipIdx, p.2 = q.2 ↔ p.1 = q.1 := fun q hq p hp =>
  ⟨fun e => congrArg Prod.fst (List.inj_on_of_nodup_map (List.nodup_zipIdx_map_snd xs) hp hq e),
    (nodup_iff_zipIdx xs).1 hn q hq p hp⟩

/-- R66: the test of the indices decides whether there is a value. -/
theorem exists_lagrange0_eq_some_iff (poly : Poly9) (pts : List (Byte × Byte)) :
    (∃ v, lagrange0 poly pts = some v) ↔ (pts.map Prod.fst).Nodup := by
  rw [lagrange0, exists_lagrangeSum_eq_some_iff, nodup_iff_zipIdx]
  simp only [List.zipIdx_map, List.forall_mem_map, Prod.map_fst, Prod.map_snd, id]

theorem lagrange0_eq_none (hn : ¬ (pts.map Prod.fst).Nodup) : lagrange0 poly pts = none :=
  Option.eq_none_iff_forall_ne_some.2 fun v hv => hn ((exists_lagrange0_eq_some_iff poly pts).1 ⟨v, hv⟩)

end Sys2Proof.Machine
end

section
/-! PROOFS. A sequence of coefficients as a polynomial over the residues (spec/41_poly_eval.md R59): its degree, and
its value at the residue of a byte. -/

namespace Sys2Proof.Machine

open Polynomial

variable {poly : Poly9}

/-- The coefficients' residues as a polynomial, the constant term first. -/
noncomputable def coeffPoly (poly : Poly9) : List Byte → (AdjoinRoot (toPoly poly))[X]
  | [] => 0
  | c :: cs => coeffPoly poly cs * X + C (residue poly c)

theorem degree_coeffPoly_lt (poly : Poly9) (cs : List Byte) : (coeffPoly poly cs).degree < cs.length := by
  induction cs with
  | nil => simp [coeffPoly]
  | cons c cs ih =>
    rw [degree_lt_iff_coeff_zero] at ih ⊢
    intro m hm
    obtain ⟨m, rfl⟩ := Nat.exists_eq_add_one_of_ne_zero (Nat.ne_zero_of_lt hm)
    rw [coeffPoly, coeff_add, coeff_mul_X, coeff_C_succ, add_zero]
    exact ih m (Nat.le_of_succ_le_succ hm)

theorem eval_coeffPoly (hp : poly.getLsbD 8 = true) (cs : List Byte) (x : Byte) :
    (coeffPoly poly cs).eval (residue poly x) = residue poly (polyValue poly cs x) := by
  induction cs with
  | nil => rw [coeffPoly, eval_zero, polyValue_nil, residue_zero]
  | cons c cs ih =>
    rw [coeffPoly, eval_add, eval_mul, eval_X, eval_C, ih, polyValue_cons hp, residue_gfAdd, residue_gfMul hp]

end Sys2Proof.Machine
end

section
/-! PROOFS. The value of `lagrange0` (spec/42_interp.md R65 to R68): its residue is the value at zero of Mathlib's
interpolant through the residues of the points. The field structure of the residues takes the irreducibility of `POLY`
as a `Fact`, which every admissible `POLY` meets. -/

namespace Sys2Proof.Machine

open Polynomial

variable {poly : Poly9} {pts : List (Byte × Byte)}

/-! ## The interpolant -/

/-- Distinct indices are distinct nodes. -/
theorem injOn_residue_fst (hp : poly.getLsbD 8 = true) (hn : (pts.map Prod.fst).Nodup) :
    Set.InjOn (residue poly ∘ Prod.fst) (pts.toFinset : Set (Byte × Byte)) := by
  intro q hq q' hq' e
  rw [List.coe_toFinset] at hq hq'
  exact List.inj_on_of_nodup_map hn hq hq' (residue_injective hp e)

section
variable (poly) [Fact (Irreducible (toPoly poly))]

/-- The polynomial of least degree through the residues of the points. -/
noncomputable def interpolant (pts : List (Byte × Byte)) : (AdjoinRoot (toPoly poly))[X] :=
  Lagrange.interpolate pts.toFinset (residue poly ∘ Prod.fst) (residue poly ∘ Prod.snd)

/-- The factor that the point at `xj` puts into the term of the point at `xi`: `x_j / (x_j - x_i)`, and one where the
points are the same. -/
noncomputable def zeroFactor (xi xj : Byte) : AdjoinRoot (toPoly poly) :=
  if xj = xi then 1 else (Lagrange.basisDivisor (residue poly xi) (residue poly xj)).eval 0

theorem zeroFactor_self (x : Byte) : zeroFactor poly x x = 1 := if_pos rfl

end

section
variable [Fact (Irreducible (toPoly poly))]

/-- Through at least as many points of a polynomial as it has coefficients passes that polynomial alone (R67). -/
theorem interpolant_eq_coeffPoly (hp : poly.getLsbD 8 = true) (hn : (pts.map Prod.fst).Nodup) {cs : List Byte}
    (hcs : cs.length ≤ pts.length) (hy : ∀ q ∈ pts, q.2 = polyValue poly cs q.1) :
    interpolant poly pts = coeffPoly poly cs := by
  refine (Lagrange.eq_interpolate_of_eval_eq _ (injOn_residue_fst hp hn) ?_ fun q hq => ?_).symm
  · rw [List.toFinset_card_of_nodup hn.of_map]
    exact (degree_coeffPoly_lt poly cs).trans_le (by exact_mod_cast hcs)
  · rw [Function.comp_apply, eval_coeffPoly hp, Function.comp_apply, hy q (List.mem_toFinset.1 hq)]

/-- The definition of R65, with the points themselves for their positions. -/
theorem eval_zero_interpolant (hn : (pts.map Prod.fst).Nodup) : (interpolant poly pts).eval 0 =
    (pts.map fun q => residue poly q.2 * (pts.map fun p => zeroFactor poly q.1 p.1).prod).sum := by
  rw [interpolant, Lagrange.interpolate_apply, eval_finsetSum, List.sum_toFinset _ hn.of_map]
  refine congrArg List.sum (List.map_congr_left fun q hq => ?_)
  rw [eval_mul, eval_C, Lagrange.basis, eval_prod, ← List.prod_toFinset _ hn.of_map,
    ← Finset.prod_erase pts.toFinset (f := fun p => zeroFactor poly q.1 p.1) (a := q)
      (zeroFactor_self poly q.1)]
  refine congrArg _ (Finset.prod_congr rfl fun p hp => (if_neg fun e => ?_).symm)
  obtain ⟨hne, hp⟩ := Finset.mem_erase.1 hp
  exact hne (List.inj_on_of_nodup_map hn (List.mem_toFinset.1 hp) hq e)

/-! ## The two loops -/

theorem residue_gfDiv (h : poly ∈ Config.admissiblePolys) {a b q : Byte} (hq : gfDiv poly a b = some q) :
    residue poly q = residue poly a / residue poly b := by
  have hp := Config.top_bit_of_mem poly h
  obtain ⟨i, hi, rfl⟩ := Option.map_eq_some_iff.1 hq
  have inverse : residue poly b * residue poly i = 1 := by
    rw [← residue_gfMul hp, (gfInv_eq_some_iff h).1 hi, residue_one]
  rw [residue_gfMul hp, div_eq_mul_inv, eq_inv_of_mul_eq_one_right inverse]

/-- Addition is subtraction (R40). -/
theorem residue_gfAdd_eq_sub (a b : Byte) : residue poly (gfAdd a b) = residue poly a - residue poly b := by
  rw [residue, gfAdd, toPoly_xor, ← CharTwo.sub_eq_add, map_sub, residue, residue]

theorem residue_eq_zeroFactor (h : poly ∈ Config.admissiblePolys) {xi xj f : Byte} (hx : xj ≠ xi)
    (hf : gfDiv poly xj (gfAdd xj xi) = some f) : residue poly f = zeroFactor poly xi xj := by
  rw [zeroFactor, if_neg hx, residue_gfDiv h hf, residue_gfAdd_eq_sub, Lagrange.basisDivisor, eval_mul, eval_C, eval_sub,
    eval_X, eval_C, zero_sub, mul_neg, ← neg_mul, ← inv_neg, neg_sub, div_eq_inv_mul]

/-- The inner loop multiplies its first factor by those of the points, where position and index tell the same points
apart. -/
theorem residue_lagrangeTerm (h : poly ∈ Config.admissiblePolys) {xi : Byte} {i : Nat} {l : List (Byte × Nat)}
    (hl : ∀ p ∈ l, p.2 = i ↔ p.1 = xi) {term v : Byte} (hv : lagrangeTerm poly xi i l term = some v) :
    residue poly v = residue poly term * (l.map fun p => zeroFactor poly xi p.1).prod := by
  have hp := Config.top_bit_of_mem poly h
  induction l generalizing term with
  | nil =>
    cases hv
    simp
  | cons p rest ih =>
    obtain ⟨xj, j⟩ := p
    obtain ⟨hj, hrest⟩ := List.forall_mem_cons.1 hl
    rw [List.map_cons, List.prod_cons]
    by_cases hx : xj = xi
    · obtain rfl := hj.2 hx
      rw [lagrangeTerm_cons_self] at hv
      rw [ih hrest hv, hx, zeroFactor_self, one_mul]
    · rw [lagrangeTerm_cons_of_ne (mt hj.1 hx)] at hv
      obtain ⟨f, hf, hv⟩ := Option.bind_eq_some_iff.1 hv
      rw [ih hrest hv, residue_gfMul hp, residue_eq_zeroFactor h hx hf, mul_assoc]

/-- The outer loop adds up the terms of the points. -/
theorem residue_lagrangeSum (h : poly ∈ Config.admissiblePolys) {xs : List (Byte × Nat)}
    {l : List ((Byte × Byte) × Nat)} (hl : ∀ q ∈ l, ∀ p ∈ xs, p.2 = q.2 ↔ p.1 = q.1.1) {sum v : Byte}
    (hv : lagrangeSum poly xs l sum = some v) : residue poly v = residue poly sum +
      (l.map fun q => residue poly q.1.2 * (xs.map fun p => zeroFactor poly q.1.1 p.1).prod).sum := by
  induction l generalizing sum with
  | nil =>
    cases hv
    simp
  | cons q rest ih =>
    obtain ⟨⟨xi, yi⟩, i⟩ := q
    obtain ⟨hi, hrest⟩ := List.forall_mem_cons.1 hl
    rw [lagrangeSum_cons] at hv
    obtain ⟨term, hterm, hv⟩ := Option.bind_eq_some_iff.1 hv
    rw [ih hrest hv, residue_gfAdd, residue_lagrangeTerm h hi hterm, List.map_cons, List.sum_cons, add_assoc]

/-! ## `lagrange0` -/

theorem residue_lagrange0 (h : poly ∈ Config.admissiblePolys) (hn : (pts.map Prod.fst).Nodup) {v : Byte}
    (hv : lagrange0 poly pts = some v) : residue poly v = (interpolant poly pts).eval 0 := by
  have positions : ∀ q ∈ pts.zipIdx, ∀ p ∈ (pts.map Prod.fst).zipIdx, p.2 = q.2 ↔ p.1 = q.1.1 := by
    simpa only [List.zipIdx_map, List.forall_mem_map, Prod.map_fst, Prod.map_snd, id] using zipIdx_snd_eq_iff hn
  rw [eval_zero_interpolant hn, residue_lagrangeSum h positions hv, residue_zero, zero_add]
  conv_rhs => rw [← List.zipIdx_map_fst 0 pts]
  simp only [List.zipIdx_map, List.map_map, Function.comp_def, Prod.map_fst]

/-- At distinct indices the value is the byte whose residue is the interpolant's value at zero. -/
theorem lagrange0_eq_some_iff (h : poly ∈ Config.admissiblePolys) (hn : (pts.map Prod.fst).Nodup) {v : Byte} :
    lagrange0 poly pts = some v ↔ residue poly v = (interpolant poly pts).eval 0 := by
  obtain ⟨w, hw⟩ := (exists_lagrange0_eq_some_iff poly pts).2 hn
  rw [← residue_lagrange0 h hn hw, residue_inj (Config.top_bit_of_mem poly h), hw, Option.some_inj, eq_comm]

end

end Sys2Proof.Machine
end

section
/-! PROOFS. The interpolation rules (spec/42_interp.md R66 to R68). -/

namespace Sys2Proof.Machine

variable {poly : Poly9} {pts : List (Byte × Byte)}

/-- Settles O36: `exists_lagrange0_eq_some_iff`, and the interpolant's value at the node zero. -/
theorem lagrangeIsDefinedForDistinctIndices : Obligations.LagrangeIsDefinedForDistinctIndices := by
  intro poly pts
  refine ⟨exists_lagrange0_eq_some_iff poly pts, fun h hn y hy => ?_⟩
  have := Fact.mk (irreducible_of_mem h)
  have hp := Config.top_bit_of_mem poly h
  have node := Lagrange.eval_interpolate_at_node (residue poly ∘ Prod.snd) (injOn_residue_fst hp hn)
    (List.mem_toFinset.2 hy)
  rw [Function.comp_apply, residue_zero] at node
  exact (lagrange0_eq_some_iff h hn).2 node.symm

/-- Settles O37: the interpolant is through the set of the points, and a repeated index stays one. -/
theorem lagrangeIgnoresTheOrder : Obligations.LagrangeIgnoresTheOrder := by
  intro poly h pts pts' perm
  have := Fact.mk (irreducible_of_mem h)
  have nodup := (perm.map Prod.fst).nodup_iff
  by_cases hn : (pts.map Prod.fst).Nodup
  · refine Option.ext fun v => ?_
    rw [lagrange0_eq_some_iff h hn, lagrange0_eq_some_iff h (nodup.1 hn), interpolant, interpolant,
      List.toFinset_eq_of_perm _ _ perm]
  · rw [lagrange0_eq_none hn, lagrange0_eq_none (mt nodup.2 hn)]

/-- The interpolant through these points is the polynomial, and its value at zero the constant term. -/
theorem lagrange0_of_horner (h : poly ∈ Config.admissiblePolys) (hn : (pts.map Prod.fst).Nodup) {c0 : Byte}
    {cs : List Byte} (hcs : cs.length + 1 ≤ pts.length) (hy : ∀ q ∈ pts, q.2 = horner poly q.1 c0 cs) :
    lagrange0 poly pts = some c0 := by
  have := Fact.mk (irreducible_of_mem h)
  have hp := Config.top_bit_of_mem poly h
  have values : ∀ q ∈ pts, q.2 = polyValue poly (c0 :: cs) q.1 := fun q hq =>
    (hy q hq).trans (horner_eq_polyValue hp q.1 c0 cs)
  rw [lagrange0_eq_some_iff h hn, interpolant_eq_coeffPoly hp hn (cs := c0 :: cs) hcs values, ← residue_zero,
    eval_coeffPoly hp, ← horner_eq_polyValue hp, horner_zero hp]

theorem gfAdd_gfAdd_cancel_right (a b : Byte) : gfAdd (gfAdd a b) b = a := by
  rw [gfAdd, gfAdd, BitVec.xor_assoc, BitVec.xor_self, BitVec.xor_zero]

/-- At `a` and at `b` the square `t^2` has the values of the line `a * b + (a + b) * t`. -/
theorem horner_square_eq_line (hp : poly.getLsbD 8 = true) (a b : Byte) : ∀ x ∈ [a, b],
    horner poly x 0x00 [0x00, 0x01] = horner poly x (gfMul poly a b) [gfAdd a b] := by
  simp only [horner, one_gfMul hp, gfAdd_zero, gfAdd_gfMul hp, List.forall_mem_cons]
  refine ⟨?_, ?_, nofun⟩
  · rw [gfMul_comm poly b a, gfAdd_gfAdd_cancel_right]
  · rw [gfAdd_comm (gfMul poly a b), gfAdd_gfAdd_cancel_right]

/-- So two points of the square give the product of their indices. -/
theorem lagrange0_two_points_of_square (h : poly ∈ Config.admissiblePolys) {a b : Byte} (hab : a ≠ b) :
    lagrange0 poly ([a, b].map fun x => (x, horner poly x 0x00 [0x00, 0x01])) = some (gfMul poly a b) :=
  lagrange0_of_horner h (cs := [gfAdd a b]) (by simpa using hab) le_rfl <|
    List.forall_mem_map.2 (horner_square_eq_line (Config.top_bit_of_mem poly h) a b)

/-- Settles O38: enough points give the constant term by `lagrange0_of_horner`; two points of the square, at 0x01 and
0x02, give the product 0x02 of their indices. -/
theorem lagrangeRecoversTheConstantTerm : Obligations.LagrangeRecoversTheConstantTerm := by
  intro poly h
  refine ⟨fun c0 cs xs hn => ?_, ?_⟩
  · have indices : (xs.map fun x => (x, horner poly x c0 cs)).map Prod.fst = xs := by simp [Function.comp_def]
    rw [← indices] at hn
    exact ⟨fun hk => lagrange0_of_horner h hn (by simpa using hk) (List.forall_mem_map.2 fun _ _ => rfl),
      (exists_lagrange0_eq_some_iff poly _).2 hn⟩
  · have product := lagrange0_two_points_of_square h (a := 0x01) (b := 0x02) (by decide)
    rw [one_gfMul (Config.top_bit_of_mem poly h)] at product
    intro zero
    exact absurd (product.symm.trans zero) (by decide)

end Sys2Proof.Machine
end

section
/-! PROOFS. The commands of the interpolation core (spec/42_interp.md R69 to R71). -/

namespace Sys2Proof.Machine

variable {s : State}

/-- Settles O39: the READY core clears the points and answers. -/
theorem ipClrEmptiesThePoints : Obligations.IpClrEmptiesThePoints := fun _ hr => whenReady_of_ready hr

/-! ## `IP.PUSH` -/

theorem exec_ipPush_of_ready (hr : s.run = .ready) (x y : Byte) :
    exec (.ipPush x y) s = if 256 ≤ s.plen then raise .duplicateIndex s else respondOk 0x00 (pushPoint ⟨x, y⟩ s) :=
  whenReady_of_ready hr

/-- The pushed pair stands at the position `PLEN` had. -/
@[simp] theorem pushPoint_pointAt (q : Point) (s : State) : (pushPoint q s).pointAt s.plen = some q :=
  List.getElem?_concat_length

/-- Settles O40: the capacity test sends the two cases to the push and to the fault. -/
theorem ipPushAppendsThePoint : Obligations.IpPushAppendsThePoint := by
  intro x y s hr
  rw [exec_ipPush_of_ready hr]
  constructor
  · intro below
    rw [if_neg (Nat.not_le.2 below)]
    exact ⟨_, rfl, rfl, pushPoint_plen s ⟨x, y⟩, pushPoint_pointAt ⟨x, y⟩ s⟩
  · intro full
    rw [if_pos full.ge, raise_of_ne s (e := .duplicateIndex) nofun]
    rfl

/-! ## `IP.INTERP` -/

theorem stagedPairs_map_fst (s : State) : (stagedPairs s).map Prod.fst = s.px := by
  rw [stagedPairs, List.map_map]
  rfl

/-- The three tests of R71, in their order, on the indices. -/
theorem exec_ipInterp_of_ready (hr : s.run = .ready) : exec .ipInterp s =
    if s.plen < 2 then raise .insufficientShares s
    else if ¬ s.px.Nodup then raise .duplicateIndex s
    else if 0x00 ∈ s.px then raise .domainError s
    else respondPartial (lagrange0 Config.poly (stagedPairs s)) s := by
  rw [exec, execIpInterp, whenReady_of_ready hr]
  simp only [hasDuplicate_eq_true, hasZero_eq_true]

/-- Settles O41: each clause decides the three tests, and after them the indices are distinct, where `lagrange0` has a
value. -/
theorem ipInterpAnswersTheInterpolant : Obligations.IpInterpAnswersTheInterpolant := by
  intro s hr
  rw [exec_ipInterp_of_ready hr]
  refine ⟨fun enough distinct nonzero => ?_, fun few => ?_, fun enough repeated => ?_, fun enough distinct zero => ?_⟩
  · obtain ⟨v, hv⟩ := (exists_lagrange0_eq_some_iff Config.poly _).2 ((stagedPairs_map_fst s).symm ▸ distinct)
    refine ⟨v, hv, ?_⟩
    rw [if_neg enough.not_gt, if_neg (not_not.2 distinct), if_neg nonzero, hv]
    rfl
  · rw [if_pos few]
    rfl
  · rw [if_neg enough.not_gt, if_pos repeated]
    rfl
  · rw [if_neg enough.not_gt, if_neg (not_not.2 distinct), if_pos zero]
    rfl

end Sys2Proof.Machine
end

section
/-! PROOFS. A host's run of several words and what it reads from the responses (spec/60_exceptions.md R91;
spec/70_reset_and_hazards.md R103). -/

namespace Sys2Proof.Machine

variable {s t : State} {ws : List CommandWord}

/-! ## The run of a list of words -/

theorem runWords_append (ws ws' : List CommandWord) (s : State) :
    runWords (ws ++ ws') s = andThen (runWords ws s) (runWords ws') := by
  induction ws generalizing s with
  | nil => rfl
  | cons w ws ih =>
    rw [List.cons_append, runWords, runWords]
    cases execWord w s with
    | next t => exact ih t
    | fault f => rfl
    | refused r => rfl

/-- An encoded command decodes to itself, so the READY core executes its rule. -/
theorem runWords_encode_cons (hr : s.run = .ready) (i : Instr) (ws : List CommandWord) :
    runWords (encode i :: ws) s = andThen (exec i s) (runWords ws) := by
  rw [runWords, execWord_of_decode hr (decode_encode i)]

/-- Every run ends, with responses added to those before it. -/
theorem runWords_total (ws : List CommandWord) (s : State) :
    ∃ t rs, runWords ws s = .next t ∧ t.responses = s.responses ++ rs := by
  induction ws generalizing s with
  | nil => exact ⟨s, [], rfl, (List.append_nil _).symm⟩
  | cons w ws ih =>
    obtain ⟨r, u, hu, hresp, -⟩ := execWord_total w s
    obtain ⟨t, rs, ht, hrest⟩ := ih u
    refine ⟨t, r :: rs, ?_, by simp [hrest, hresp]⟩
    rw [runWords, hu, andThen_next, ht]

/-! ## The values of the responses -/

theorem runForVals_of_runWords {rs : List Response} (h : runWords ws s = .next t)
    (hresp : t.responses = s.responses ++ rs) : runForVals ws s = .next (responseVals rs, t) := by
  rw [runForVals, h, andThen_next, newResponses, hresp, List.drop_left]

/-- OK responses give their values, whatever follows them. -/
theorem responseVals_ok_append (vs : List Byte) (rs : List Response) :
    responseVals (vs.map .ok ++ rs) = (responseVals rs).map (vs ++ ·) := by
  induction vs with
  | nil =>
    rw [List.map_nil, List.nil_append]
    cases responseVals rs <;> rfl
  | cons v vs ih =>
    rw [List.map_cons, List.cons_append, responseVals, ih]
    cases responseVals rs <;> rfl

/-- The first fault is what the host gets. -/
theorem responseVals_fault (vs : List Byte) (e : ErrorName) (rs : List Response) :
    responseVals (vs.map .ok ++ .err e :: rs) = .error e := responseVals_ok_append vs (.err e :: rs)

/-! ## Runs answered OK throughout -/

/-- The state with an OK response returned for each of these values. -/
def answerValues (vs : List Byte) (s : State) : State := { s with responses := s.responses ++ vs.map .ok }

@[simp] theorem answerValues_run (vs : List Byte) (s : State) : (answerValues vs s).run = s.run := rfl
@[simp] theorem answerValues_coef (vs : List Byte) (s : State) : (answerValues vs s).coef = s.coef := rfl
@[simp] theorem answerValues_points (vs : List Byte) (s : State) : (answerValues vs s).points = s.points := rfl
@[simp] theorem answerValues_pending (vs : List Byte) (s : State) : (answerValues vs s).pending = s.pending := rfl
@[simp] theorem answerValues_responses (vs : List Byte) (s : State) :
    (answerValues vs s).responses = s.responses ++ vs.map .ok := rfl

theorem answerValues_append (vs vs' : List Byte) (s : State) :
    answerValues vs' (answerValues vs s) = answerValues (vs ++ vs') s := by
  simp [answerValues]

/-- The host reads the values of a run answered OK throughout. -/
theorem runForVals_of_answerValues {u : State} {vs : List Byte} (h : runWords ws s = .next (answerValues vs u))
    (hresp : u.responses = s.responses) : runForVals ws s = .next (.ok vs, answerValues vs u) := by
  have vals : responseVals (vs.map .ok ++ []) = .ok vs := by
    rw [responseVals_ok_append, responseVals, Except.map, List.append_nil]
  rw [List.append_nil] at vals
  rw [runForVals_of_runWords h (by rw [answerValues_responses, hresp]), vals]

end Sys2Proof.Machine
end

section
/-! PROOFS. The pseudo-instruction `SPLIT.BYTE` (spec/43_split_combine_sequences.md R74). -/

namespace Sys2Proof.Machine

variable {s : State}

/-- `PE.PUSH` after `PE.PUSH`, up to the capacity, all answered OK. -/
theorem runWords_pePush (cs : List Byte) (hr : s.run = .ready) (hcap : s.clen + cs.length ≤ 255) :
    runWords (cs.map fun c => encode (.pePush c)) s =
      .next (answerValues (List.replicate cs.length 0x00) { s with coef := s.coef ++ cs }) := by
  induction cs generalizing s with
  | nil => simp [runWords, answerValues]
  | cons c cs ih =>
    rw [List.length_cons] at hcap
    have pushed : exec (.pePush c) s = .next (answer (.ok 0x00) (pushCoef c s)) := by
      rw [exec_pePush_of_ready hr, if_neg (by omega), respondOk_eq]
    rw [List.map_cons, runWords_encode_cons hr, pushed, andThen_next,
      ih (s := answer (.ok 0x00) (pushCoef c s)) hr (by simp; omega)]
    simp [answerValues, answer, pushCoef, List.replicate_succ]

/-- `PE.EVAL` after `PE.EVAL` at nonzero points of the staged polynomial, all answered with its values. -/
theorem runWords_peEval {c0 : Byte} {cs : List Byte} (xs : List Byte) (hr : s.run = .ready) (hc : s.coef = c0 :: cs)
    (hx : 0x00 ∉ xs) : runWords (xs.map fun x => encode (.peEval x)) s =
      .next (answerValues (xs.map fun x => horner Config.poly x c0 cs) s) := by
  induction xs generalizing s with
  | nil => simp [runWords, answerValues]
  | cons x xs ih =>
    obtain ⟨hx0, hxs⟩ := not_or.1 (mt List.mem_cons.2 hx)
    have evaluated : exec (.peEval x) s = .next (answer (.ok (horner Config.poly x c0 cs)) s) := by
      rw [exec_peEval_of_cons hr hc, if_neg (Ne.symm hx0), respondOk_eq]
    rw [List.map_cons, runWords_encode_cons hr, evaluated, andThen_next, ih (s := answer _ s) hr hc hxs]
    simp [answerValues, answer]

/-- The state in which the expansion has staged the polynomial of `c0` and `cs`: the buffer cleared and filled again. -/
def stagedCoef (c0 : Byte) (cs : List Byte) (s : State) : State :=
  answerValues (List.replicate (2 + cs.length) 0x00) { s with coef := c0 :: cs }

theorem runWords_stageCoef (c0 : Byte) {cs : List Byte} (hr : s.run = .ready) (hk : cs.length + 1 ≤ 255) :
    runWords (encode .peClr :: (c0 :: cs).map fun c => encode (.pePush c)) s = .next (stagedCoef c0 cs s) := by
  have cleared : exec .peClr s = .next (answer (.ok 0x00) (clearCoef s)) := peClrEmptiesTheCoefficients s hr
  rw [runWords_encode_cons hr, cleared, andThen_next,
    runWords_pePush (s := answer (.ok 0x00) (clearCoef s)) (c0 :: cs) hr (by simpa using Nat.lt_of_succ_le hk)]
  simp [stagedCoef, answerValues, answer, clearCoef, List.replicate_succ, Nat.add_comm 2]

/-- The values at the points are those of the last responses, after the zeros of `PE.CLR` and the pushes. -/
theorem splitByte_of_ready (c0 : Byte) {cs xs : List Byte} (hr : s.run = .ready) (hk : cs.length + 1 ≤ 255)
    (hx : 0x00 ∉ xs) : splitByte c0 cs xs s =
      .next (.ok (xs.map fun x => horner Config.poly x c0 cs),
        answerValues (xs.map fun x => horner Config.poly x c0 cs) (stagedCoef c0 cs s)) := by
  have words : splitByteWords c0 cs xs = (encode .peClr :: (c0 :: cs).map fun c => encode (.pePush c)) ++
      xs.map fun x => encode (.peEval x) := rfl
  have run : runWords (splitByteWords c0 cs xs) s =
      .next (answerValues (xs.map fun x => horner Config.poly x c0 cs) (stagedCoef c0 cs s)) := by
    rw [words, runWords_append, runWords_stageCoef c0 hr hk, andThen_next]
    exact runWords_peEval xs hr rfl hx
  rw [stagedCoef, answerValues_append] at run ⊢
  rw [splitByte, runForVals_of_answerValues run rfl, andThen_next, Except.map,
    List.drop_left' List.length_replicate]

/-- Settles O50: `splitByte_of_ready` has the outputs and the state. -/
theorem splitByteAnswersTheShareBytes : Obligations.SplitByteAnswersTheShareBytes := fun c0 cs xs =>
  ⟨by simp [splitByteWords]; omega, fun _ hr hk hx => ⟨_, splitByte_of_ready c0 hr hk hx, hr, rfl, rfl, rfl⟩⟩

end Sys2Proof.Machine
end

section
/-! PROOFS. The pseudo-instruction `COMBINE.BYTE` (spec/43_split_combine_sequences.md R79). -/

namespace Sys2Proof.Machine

variable {s t : State} {pts : List (Byte × Byte)}

/-- `IP.PUSH` after `IP.PUSH`, up to the capacity, all answered OK. -/
theorem runWords_ipPush (pts : List (Byte × Byte)) (hr : s.run = .ready) (hcap : s.plen + pts.length ≤ 256) :
    runWords (pts.map fun q => encode (.ipPush q.1 q.2)) s = .next (answerValues (List.replicate pts.length 0x00)
      { s with points := s.points ++ pts.map fun q => ⟨q.1, q.2⟩ }) := by
  induction pts generalizing s with
  | nil => simp [runWords, answerValues]
  | cons q pts ih =>
    rw [List.length_cons] at hcap
    have pushed : exec (.ipPush q.1 q.2) s = .next (answer (.ok 0x00) (pushPoint ⟨q.1, q.2⟩ s)) := by
      rw [exec_ipPush_of_ready hr, if_neg (by omega), respondOk_eq]
    rw [List.map_cons, runWords_encode_cons hr, pushed, andThen_next,
      ih (s := answer (.ok 0x00) (pushPoint ⟨q.1, q.2⟩ s)) hr (by simp; omega)]
    simp [answerValues, answer, pushPoint, List.replicate_succ]

/-- The state in which the expansion has staged the points: the buffer cleared and filled again. -/
def stagedPoints (pts : List (Byte × Byte)) (s : State) : State :=
  answerValues (List.replicate (1 + pts.length) 0x00) { s with points := pts.map fun q => ⟨q.1, q.2⟩ }

@[simp] theorem stagedPoints_plen (pts : List (Byte × Byte)) (s : State) : (stagedPoints pts s).plen = pts.length :=
  List.length_map _

@[simp] theorem stagedPairs_stagedPoints (pts : List (Byte × Byte)) (s : State) :
    stagedPairs (stagedPoints pts s) = pts := by
  simp [stagedPairs, stagedPoints, Function.comp_def]

@[simp] theorem stagedPoints_px (pts : List (Byte × Byte)) (s : State) :
    (stagedPoints pts s).px = pts.map Prod.fst := by
  rw [← stagedPairs_map_fst, stagedPairs_stagedPoints]

theorem runWords_stagePoints (hr : s.run = .ready) (hcap : pts.length ≤ 256) :
    runWords (encode .ipClr :: pts.map fun q => encode (.ipPush q.1 q.2)) s = .next (stagedPoints pts s) := by
  have cleared : exec .ipClr s = .next (answer (.ok 0x00) (clearPoints s)) := ipClrEmptiesThePoints s hr
  rw [runWords_encode_cons hr, cleared, andThen_next,
    runWords_ipPush (s := answer (.ok 0x00) (clearPoints s)) pts hr (by simpa using hcap)]
  simp [stagedPoints, answerValues, answer, clearPoints, List.replicate_succ, Nat.add_comm 1]

/-- What `COMBINE.BYTE` makes of the response to its `IP.INTERP`. -/
def resultOf : Response → Except ErrorName Byte
  | .ok v => .ok v
  | .err e => .error e

/-- With the points within the capacity, the pushes answer OK and `IP.INTERP` decides. -/
theorem combineByte_of_interp (hr : s.run = .ready) (hcap : pts.length ≤ 256) {r : Response}
    (h : exec .ipInterp (stagedPoints pts s) = .next t)
    (hresp : t.responses = (stagedPoints pts s).responses ++ [r]) :
    combineByte pts s = .next (resultOf r, t) := by
  have run : runWords (combineByteWords pts) s = .next t := by
    rw [combineByteWords, ← List.cons_append, runWords_append, runWords_stagePoints hr hcap, andThen_next,
      runWords_encode_cons (s := stagedPoints pts s) hr, h, andThen_next, runWords]
  have vals := runForVals_of_runWords run (rs := (List.replicate (1 + pts.length) 0x00).map .ok ++ [r])
    (by simp [hresp, stagedPoints])
  rw [combineByte, vals, andThen_next, responseVals_ok_append]
  cases r with
  | ok v => simp [responseVals, resultOf, Except.map]
  | err e => rfl

/-- With more points than the capacity, a push is answered `DuplicateIndex`, and the host gets that fault. -/
theorem combineByte_of_capacity_lt (hr : s.run = .ready) (hcap : 256 < pts.length) :
    ∃ t, combineByte pts s = .next (.error .duplicateIndex, t) := by
  obtain ⟨front, q, back, rfl, hfront⟩ : ∃ front q back, pts = front ++ q :: back ∧ front.length = 256 :=
    ⟨pts.take 256, pts[256], pts.drop 257, by simp, by simp; omega⟩
  have full : exec (.ipPush q.1 q.2) (stagedPoints front s) =
      .next (answer (.err .duplicateIndex) (stagedPoints front s)) := by
    rw [exec_ipPush_of_ready (s := stagedPoints front s) hr, if_pos (by simp [hfront])]
    rfl
  obtain ⟨t, rs, ht, hresp⟩ := runWords_total
    (back.map (fun q => encode (.ipPush q.1 q.2)) ++ [encode .ipInterp])
    (answer (.err .duplicateIndex) (stagedPoints front s))
  have run : runWords (combineByteWords (front ++ q :: back)) s = .next t := by
    rw [combineByteWords, List.map_append, List.append_assoc, ← List.cons_append, runWords_append,
      runWords_stagePoints hr hfront.le, andThen_next, List.map_cons, List.cons_append,
      runWords_encode_cons (s := stagedPoints front s) hr, full, andThen_next, ht]
  have vals := runForVals_of_runWords run
    (rs := (List.replicate (1 + front.length) 0x00).map .ok ++ .err .duplicateIndex :: rs)
    (by simp [hresp, stagedPoints])
  exact ⟨t, by rw [combineByte, vals, andThen_next, responseVals_fault]; rfl⟩

theorem card_byte : Fintype.card Byte = 256 := by
  rw [Fintype.card_congr BitVec.equivFin.toEquiv, Fintype.card_fin]
  rfl

/-- There are no more than 256 distinct indices. -/
theorem length_le_256_of_nodup_map {α : Type} {l : List α} {f : α → Byte} (h : (l.map f).Nodup) : l.length ≤ 256 := by
  simpa [card_byte] using h.length_le_card

/-- Settles O51: with at most 256 points staged the four kinds of input are the four clauses about `IP.INTERP`, and
more points than that repeat an index. -/
theorem combineByteAnswersTheInterpolant : Obligations.CombineByteAnswersTheInterpolant := by
  refine fun pts => ⟨by simp [combineByteWords]; omega, fun s hr => ?_⟩
  obtain ⟨value, few, repeated, zero⟩ := ipInterpAnswersTheInterpolant (stagedPoints pts s) hr
  simp only [stagedPoints_plen, stagedPoints_px, stagedPairs_stagedPoints] at value few repeated zero
  refine ⟨fun h2 hn h0 => ?_, fun h2 => ?_, fun h2 hn => ?_, fun h2 hn h0 => ?_⟩
  · obtain ⟨v, hv, he⟩ := value h2 hn h0
    exact ⟨v, _, hv, combineByte_of_interp hr (length_le_256_of_nodup_map hn) he rfl, hr, rfl, rfl⟩
  · exact ⟨_, combineByte_of_interp hr (by omega) (few h2) rfl, hr⟩
  · obtain hcap | hcap := le_or_gt pts.length 256
    · exact ⟨_, combineByte_of_interp hr hcap (repeated h2 hn) rfl⟩
    · exact combineByte_of_capacity_lt hr hcap
  · exact ⟨_, combineByte_of_interp hr (length_le_256_of_nodup_map hn) (zero h2 hn h0) rfl, rfl⟩

end Sys2Proof.Machine
end

section
/-! PROOFS. The host's `split` (spec/43_split_combine_sequences.md R75, R78). -/

namespace Sys2Proof.Machine

variable {k : Nat} {xs : List Byte} {s t : State}

/-- The coefficients drawn for byte position `j`. -/
def drawnCoefs (k : Nat) (draw : Nat → Nat → Byte) (j : Nat) : List Byte := (List.range (k - 1)).map (draw j)

/-- The share at the index `x`: at every byte position the value there of that position's polynomial. -/
def shareAt (k : Nat) (draw : Nat → Nat → Byte) (secret : List Byte) (x : Byte) : Share :=
  ⟨x, secret.zipIdx.map fun bj => horner Config.poly x bj.1 (drawnCoefs k draw bj.2)⟩

@[simp] theorem drawnCoefs_length (k : Nat) (draw : Nat → Nat → Byte) (j : Nat) :
    (drawnCoefs k draw j).length = k - 1 := by
  simp [drawnCoefs]

/-- The loop of `split`: `SPLIT.BYTE` answers at every position, and leaves the core READY for the next. -/
theorem splitRows_of_ready (draw : Nat → Nat → Byte) (hk : k ≤ 255) (hx : 0x00 ∉ xs) (j : Nat) (secret : List Byte)
    (hr : s.run = .ready) : ∃ t, t.run = .ready ∧ splitRows k xs draw j secret s = .next (.ok
      ((secret.zipIdx j).map fun bj => xs.map fun x => horner Config.poly x bj.1 (drawnCoefs k draw bj.2)), t) := by
  induction secret generalizing j s with
  | nil => exact ⟨s, hr, rfl⟩
  | cons b bs ih =>
    have row := splitByte_of_ready b (cs := drawnCoefs k draw j) hr (by rw [drawnCoefs_length]; omega) hx
    obtain ⟨t, ht, rows⟩ := ih (j + 1) (s := answerValues _ (stagedCoef b (drawnCoefs k draw j) s)) hr
    refine ⟨t, ht, ?_⟩
    rw [splitRows, ← drawnCoefs, row, andThen_next]
    dsimp only
    rw [rows]
    rfl

/-- The byte of the `i`-th index stands at the place `i` of every row, so the shares are the columns (R74, R75). -/
theorem sharesOfRows_map {α : Type} (xs : List Byte) (l : List α) (f : α → Byte → Byte) :
    sharesOfRows xs (l.map fun a => xs.map (f a)) = xs.map fun x => ⟨x, l.map fun a => f a x⟩ := by
  conv_rhs => rw [← List.zipIdx_map_fst 0 xs, List.map_map]
  refine List.map_congr_left fun q hq => ?_
  have hx : xs[q.2]? = some q.1 := List.mem_zipIdx_iff_getElem?.1 hq
  simp [hx, Function.comp_def]

/-- With valid parameters and any nonzero indices `split` returns one share per index, in their order. -/
theorem splitAt_of_ready (draw : Nat → Nat → Byte) (secret : List Byte) (hk : k ≤ 255) (hx : 0x00 ∉ xs)
    (hr : s.run = .ready) : ∃ t, t.run = .ready ∧
      splitAt k xs draw secret s = .next (.ok (xs.map (shareAt k draw secret)), t) := by
  obtain ⟨t, ht, rows⟩ := splitRows_of_ready draw hk hx 0 secret hr
  refine ⟨t, ht, ?_⟩
  rw [splitAt, rows, andThen_next, Except.map, sharesOfRows_map]
  rfl

theorem splitRejects_eq_true_iff (secret : List Byte) (n k : Nat) :
    splitRejects secret n k = true ↔ k = 0 ∨ n < k ∨ n = 0 ∨ 255 < n ∨ secret = [] := by
  simp [splitRejects, or_assoc]

/-- The conventional indices are nonzero bytes (R75). -/
theorem zero_not_mem_indicesUpTo {n : Nat} (hn : n ≤ 255) : 0x00 ∉ indicesUpTo n := by
  rw [indicesUpTo, List.mem_map]
  rintro ⟨i, hi, h0⟩
  have value := congrArg BitVec.toNat h0
  have below : i + 1 < 2 ^ 8 := Nat.lt_of_le_of_lt (List.mem_range.1 hi) (Nat.lt_succ_of_le hn)
  rw [BitVec.toNat_ofNat, Nat.mod_eq_of_lt below] at value
  exact Nat.succ_ne_zero i value

theorem split_of_valid (draw : Nat → Nat → Byte) {secret : List Byte} {n : Nat} (hr : s.run = .ready)
    (hvalid : splitRejects secret n k ≠ true) : ∃ t, t.run = .ready ∧
      split secret n k draw s = .next (.ok ((indicesUpTo n).map (shareAt k draw secret)), t) := by
  have good := mt (splitRejects_eq_true_iff secret n k).2 hvalid
  rw [split, if_neg hvalid]
  exact splitAt_of_ready draw secret (by omega) (zero_not_mem_indicesUpTo (by omega)) hr

/-- Settles O52: `splitRejects` tests the five parameters; past it `split_of_valid`. -/
theorem splitFollowsItsProcedure : Obligations.SplitFollowsItsProcedure := by
  intro secret n k draw s
  refine ⟨fun bad => ?_, fun hr hs hk hkn hn => split_of_valid draw hr ?_⟩
  · rw [split, if_pos ((splitRejects_eq_true_iff secret n k).2 bad)]
  · rw [Ne, splitRejects_eq_true_iff]
    simp only [hs, or_false]
    omega

end Sys2Proof.Machine
end

section
/-! PROOFS. The host's `combine` (spec/43_split_combine_sequences.md R80, R81). -/

namespace Sys2Proof.Machine

variable {shares : List Share} {s : State} {len : Nat}

/-! ## The loop over the byte positions -/

@[simp] theorem sharePoints_map_fst (shares : List Share) (j : Nat) :
    (sharePoints shares j).map Prod.fst = shares.map Share.index := by
  simp [sharePoints, Function.comp_def]

@[simp] theorem sharePoints_length (shares : List Share) (j : Nat) : (sharePoints shares j).length = shares.length := by
  simp [sharePoints]

/-- With two shares or more at distinct nonzero indices, `COMBINE.BYTE` gives the interpolant's value at every
position. -/
theorem combineRows_of_values (h2 : 2 ≤ shares.length) (hn : (shares.map Share.index).Nodup)
    (h0 : 0x00 ∉ shares.map Share.index) {v : Nat → Byte} (js : List Nat)
    (hv : ∀ j ∈ js, lagrange0 Config.poly (sharePoints shares j) = some (v j)) (hr : s.run = .ready) :
    ∃ t, combineRows shares js s = .next (.ok (js.map v), t) ∧ t.run = .ready := by
  induction js generalizing s with
  | nil => exact ⟨s, rfl, hr⟩
  | cons j js ih =>
    obtain ⟨hj, hjs⟩ := List.forall_mem_cons.1 hv
    obtain ⟨-, answers⟩ := combineByteAnswersTheInterpolant (sharePoints shares j)
    obtain ⟨w, u, hw, byte, hu, -⟩ := (answers s hr).1 (by simpa using h2) (by simpa using hn) (by simpa using h0)
    obtain rfl : v j = w := Option.some_inj.1 (hj.symm.trans hw)
    obtain ⟨t, rows, ht⟩ := ih hjs hu
    refine ⟨t, ?_, ht⟩
    rw [combineRows, byte, andThen_next]
    dsimp only
    rw [rows]
    rfl

/-- A zero index halts the core at the first position, and the loop stops there. -/
theorem combineRows_of_zero (h2 : 2 ≤ shares.length) (hn : (shares.map Share.index).Nodup)
    (h0 : 0x00 ∈ shares.map Share.index) (j : Nat) (js : List Nat) (hr : s.run = .ready) :
    ∃ t, combineRows shares (j :: js) s = .next (.error .domainError, t) ∧ t.run = .halted := by
  obtain ⟨-, answers⟩ := combineByteAnswersTheInterpolant (sharePoints shares j)
  obtain ⟨-, -, -, zero⟩ := answers s hr
  obtain ⟨t, byte, ht⟩ := zero (by simpa using h2) (by simpa using hn) (by simpa using h0)
  exact ⟨t, by rw [combineRows, byte, andThen_next], ht⟩

/-! ## The three checks -/

/-- The third check passes exactly when all payloads have one length. -/
theorem lengthsDiffer_eq_true_iff (shares : List Share) : lengthsDiffer shares = true ↔
    ∃ a ∈ shares, ∃ b ∈ shares, a.payload.length ≠ b.payload.length := by
  cases shares with
  | nil => simp [lengthsDiffer]
  | cons first rest =>
    have head : payloadLength (first :: rest) = first.payload.length := rfl
    rw [lengthsDiffer, List.any_eq_true, head]
    simp only [bne_iff_ne]
    constructor
    · rintro ⟨a, ha, hne⟩
      exact ⟨a, ha, first, List.mem_cons_self, hne⟩
    · rintro ⟨a, ha, b, hb, hne⟩
      by_cases same : a.payload.length = first.payload.length
      · exact ⟨b, hb, fun h => hne (same.trans h.symm)⟩
      · exact ⟨a, ha, same⟩

theorem payloadLength_eq (hs : shares ≠ []) (hlen : ∀ a ∈ shares, a.payload.length = len) :
    payloadLength shares = len := by
  obtain ⟨first, rest, rfl⟩ := List.exists_cons_of_ne_nil hs
  exact hlen first List.mem_cons_self

/-- With the checks passed only the loop is left. -/
theorem combine_of_checked (h2 : 2 ≤ shares.length) (hn : (shares.map Share.index).Nodup)
    (hlen : ∀ a ∈ shares, a.payload.length = len) (s : State) :
    combine shares s = combineRows shares (List.range len) s := by
  have nonempty : shares ≠ [] := List.ne_nil_of_length_pos (by omega)
  have same : ¬ lengthsDiffer shares = true := by
    rw [lengthsDiffer_eq_true_iff]
    rintro ⟨a, ha, b, hb, hne⟩
    exact hne ((hlen a ha).trans (hlen b hb).symm)
  rw [combine, if_neg h2.not_gt, if_neg (by rwa [hasDuplicate_eq_true, not_not]), if_neg same,
    payloadLength_eq nonempty hlen]

/-- Settles O53: the checks in their order, then the loop over the positions below `len`. -/
theorem combineFollowsItsProcedure : Obligations.CombineFollowsItsProcedure := by
  refine fun shares s => ⟨fun few => if_pos few, fun h2 hn => ?_, fun h2 hn hne => ?_, fun len hr h2 hn hlen => ?_⟩
  · rw [combine, if_neg h2.not_gt, if_pos ((hasDuplicate_eq_true _).2 hn)]
  · rw [combine, if_neg h2.not_gt, if_neg (by rwa [hasDuplicate_eq_true, not_not]),
      if_pos ((lengthsDiffer_eq_true_iff shares).2 hne)]
  · rw [combine_of_checked h2 hn hlen]
    refine ⟨fun h => by rw [h]; rfl, fun h0 => ?_, fun h h0 => ?_⟩
    · have values (j : Nat) := (exists_lagrange0_eq_some_iff Config.poly (sharePoints shares j)).2 (by simpa using hn)
      choose v hv using values
      obtain ⟨t, rows, ht⟩ := combineRows_of_values h2 hn h0 (List.range len) (fun j _ => hv j) hr
      exact ⟨_, t, rows, ht, by simp, fun j hj => by rw [hv]; simp [hj]⟩
    · obtain ⟨m, rfl⟩ := Nat.exists_eq_add_one_of_ne_zero h
      rw [List.range_succ_eq_map]
      exact combineRows_of_zero h2 hn h0 0 _ hr

end Sys2Proof.Machine
end

section
/-! PROOFS. The round trip of `split` and `combine` (spec/43_split_combine_sequences.md R82). -/

namespace Sys2Proof.Machine

variable {k : Nat} {secret xs : List Byte} {draw : Nat → Nat → Byte} {sub : List Share}

theorem shareAt_payload_length (k : Nat) (draw : Nat → Nat → Byte) (secret : List Byte) (x : Byte) :
    (shareAt k draw secret x).payload.length = secret.length := by
  simp [shareAt]

theorem shareAt_payload_getD (k : Nat) (draw : Nat → Nat → Byte) (x : Byte) {j : Nat} (hj : j < secret.length) :
    (shareAt k draw secret x).payload.getD j 0x00 =
      horner Config.poly x (secret.getD j 0x00) (drawnCoefs k draw j) := by
  simp [shareAt, hj]

theorem map_shareAt_index (k : Nat) (draw : Nat → Nat → Byte) (secret xs : List Byte) :
    (xs.map (shareAt k draw secret)).map Share.index = xs := by
  simp [shareAt, Function.comp_def]

/-- At every position the shares' bytes are values of a polynomial with `k` coefficients, whose constant term is the
secret's byte: `k` of them or more give it back. -/
theorem lagrange0_of_shares (hk : 1 ≤ k) (hsub : sub ⊆ xs.map (shareAt k draw secret))
    (hn : (sub.map Share.index).Nodup) (hks : k ≤ sub.length) {j : Nat} (hj : j < secret.length) :
    lagrange0 Config.poly (sharePoints sub j) = some (secret.getD j 0x00) := by
  refine lagrange0_of_horner Config.poly_mem (cs := drawnCoefs k draw j) (by simpa using hn)
    (by rw [drawnCoefs_length, sharePoints_length]; omega) (List.forall_mem_map.2 fun share hshare => ?_)
  obtain ⟨x, -, rfl⟩ := List.mem_map.1 (hsub hshare)
  exact shareAt_payload_getD k draw x hj

/-- The round trip for shares at any nonzero indices. -/
theorem combine_of_shares (hk : 1 ≤ k) (hx : 0x00 ∉ xs) (hsub : sub ⊆ xs.map (shareAt k draw secret))
    (hn : (sub.map Share.index).Nodup) (hks : k ≤ sub.length) (h2 : 2 ≤ sub.length) {u : State}
    (hu : u.run = .ready) : ∃ v, combine sub u = .next (.ok secret, v) ∧ v.run = .ready := by
  have h0 : 0x00 ∉ sub.map Share.index := fun h =>
    hx (map_shareAt_index k draw secret xs ▸ List.map_subset Share.index hsub h)
  have hlen : ∀ a ∈ sub, a.payload.length = secret.length := by
    intro a ha
    obtain ⟨x, -, rfl⟩ := List.mem_map.1 (hsub ha)
    exact shareAt_payload_length k draw secret x
  obtain ⟨v, rows, hv⟩ := combineRows_of_values h2 hn h0 (List.range secret.length)
    (fun j hj => lagrange0_of_shares hk hsub hn hks (List.mem_range.1 hj)) hu
  have bytes : (List.range secret.length).map (fun j => secret.getD j 0x00) = secret :=
    List.ext_getElem (by simp) fun j _ hj => by simp [hj]
  exact ⟨v, by rw [combine_of_checked h2 hn hlen, rows, bytes], hv⟩

/-- Settles O54: only valid parameters give shares, which are then those of `split_of_valid`. -/
theorem combineOfSplitIsTheSecret : Obligations.CombineOfSplitIsTheSecret := by
  intro secret n k draw s t u shares sub hr hsplit hsub hn hks h2 hu
  by_cases hvalid : splitRejects secret n k = true
  · rw [split, if_pos hvalid] at hsplit
    cases hsplit
  · obtain ⟨t', -, ht⟩ := split_of_valid draw hr hvalid
    rw [ht] at hsplit
    cases hsplit
    have good := mt (splitRejects_eq_true_iff secret n k).2 hvalid
    exact combine_of_shares (by omega) (zero_not_mem_indicesUpTo (by omega)) hsub hn hks h2 hu

/-- Distinct nonzero indices are at most 255. -/
theorem length_le_255_of_nodup (hn : xs.Nodup) (hx : 0x00 ∉ xs) : xs.length ≤ 255 := by
  have bound := (List.nodup_cons.2 ⟨hx, hn⟩).length_le_card
  rw [card_byte, List.length_cons] at bound
  omega

/-- Settles O56: `splitAt_of_ready` has the shares, `combine_of_shares` the round trip. -/
theorem combineOfSplitAtAnyIndicesIsTheSecret : Obligations.CombineOfSplitAtAnyIndicesIsTheSecret := by
  intro k xs secret draw s hr hn hx hk hkn
  obtain ⟨t, ht, hsplit⟩ := splitAt_of_ready draw secret (hkn.trans (length_le_255_of_nodup hn hx)) hx hr
  exact ⟨_, t, hsplit, ht, map_shareAt_index k draw secret xs, fun sub u hsub hsn hks h2 hu =>
    combine_of_shares hk hx hsub hsn hks h2 hu⟩

end Sys2Proof.Machine
end

section
/-! PROOFS. Fewer than `k` bytes of a split (spec/43_split_combine_sequences.md R77): the drawn coefficients correspond
one to one to the observed bytes together with the coefficients beyond their number. -/

namespace Sys2Proof.Machine

open Polynomial

variable {poly : Poly9} {m e : Nat} {x : Fin m → Byte}

/-! ## The coefficients from the observed bytes -/

theorem coeff_coeffPoly (poly : Poly9) (cs : List Byte) (j : Nat) :
    (coeffPoly poly cs).coeff j = residue poly (cs.getD j 0x00) := by
  induction cs generalizing j with
  | nil => rw [coeffPoly, coeff_zero, List.getD_nil, residue_zero]
  | cons c cs ih =>
    cases j with
    | zero => rw [coeffPoly, coeff_add, coeff_mul_X_zero, coeff_C_zero, zero_add, List.getD_cons_zero]
    | succ j => rw [coeffPoly, coeff_add, coeff_mul_X, coeff_C_succ, add_zero, ih, List.getD_cons_succ]

/-- At a nonzero index the byte determines the value of the drawn part of the polynomial. -/
theorem polyValue_eq_of_horner_eq (h : poly ∈ Config.admissiblePolys) {a secret : Byte} (ha : a ≠ 0x00)
    {cs cs' : List Byte} (same : horner poly a secret cs = horner poly a secret cs') :
    polyValue poly cs a = polyValue poly cs' a := by
  have hp := Config.top_bit_of_mem poly h
  have := Fact.mk (irreducible_of_mem h)
  rwa [horner_eq_polyValue hp, horner_eq_polyValue hp, polyValue_cons hp, polyValue_cons hp, ← residue_inj hp,
    residue_gfAdd, residue_gfAdd, add_left_inj, residue_gfMul hp, residue_gfMul hp,
    mul_left_inj' (mt (residue_eq_zero_iff hp).1 ha), residue_inj hp] at same

/-- The observed bytes, and the drawn coefficients beyond as many as there are bytes. -/
def observedAndRest (poly : Poly9) (x : Fin m → Byte) (secret : Byte) (c : Fin (m + e) → Byte) :
    (Fin m → Byte) × (Fin e → Byte) := (observed poly x secret c, c ∘ Fin.natAdd m)

/-- Two choices of coefficients that agree there differ by a polynomial of degree below `m` with `m` zeros. -/
theorem observedAndRest_injective (h : poly ∈ Config.admissiblePolys) (hx : Function.Injective x)
    (h0 : ∀ i, x i ≠ 0x00) (secret : Byte) : Function.Injective (observedAndRest (e := e) poly x secret) := by
  intro c c' hcc
  obtain ⟨bytes, rest⟩ := Prod.mk.inj hcc
  have hp := Config.top_bit_of_mem poly h
  have := Fact.mk (irreducible_of_mem h)
  have high (j : Nat) (hj : m ≤ j) : (List.ofFn c).getD j 0x00 = (List.ofFn c').getD j 0x00 := by
    obtain ⟨i, rfl⟩ := Nat.exists_eq_add_of_le hj
    by_cases hi : i < e
    · have same : c (Fin.natAdd m ⟨i, hi⟩) = c' (Fin.natAdd m ⟨i, hi⟩) := congrFun rest ⟨i, hi⟩
      simpa [List.getD_eq_getElem?_getD, hi] using same
    · simp [List.getD_eq_getElem?_getD, hi]
  have same : coeffPoly poly (List.ofFn c) = coeffPoly poly (List.ofFn c') := by
    refine eq_of_degree_sub_lt_of_eval_index_eq Finset.univ (v := residue poly ∘ x)
      ((residue_injective hp).comp hx).injOn ?_ fun i _ => ?_
    · rw [Finset.card_univ, Fintype.card_fin, degree_lt_iff_coeff_zero]
      intro j hj
      rw [coeff_sub, coeff_coeffPoly, coeff_coeffPoly, high j hj, sub_self]
    · rw [Function.comp_apply, eval_coeffPoly hp, eval_coeffPoly hp,
        polyValue_eq_of_horner_eq h (h0 i) (congrFun bytes i)]
  funext i
  have coefficient := congrArg (fun p => p.coeff i) same
  simp only [coeff_coeffPoly, residue_inj hp] at coefficient
  simpa [List.getD_eq_getElem?_getD] using coefficient

theorem observedAndRest_bijective (h : poly ∈ Config.admissiblePolys) (hx : Function.Injective x)
    (h0 : ∀ i, x i ≠ 0x00) (secret : Byte) : Function.Bijective (observedAndRest (e := e) poly x secret) := by
  refine (Fintype.bijective_iff_injective_and_card _).2 ⟨observedAndRest_injective h hx h0 secret, ?_⟩
  simp only [Fintype.card_prod, Fintype.card_fun, Fintype.card_fin, pow_add]

/-- With as many coefficients as bytes nothing is left beyond, and the bytes alone determine the coefficients. -/
theorem observed_bijective (h : poly ∈ Config.admissiblePolys) (hx : Function.Injective x) (h0 : ∀ i, x i ≠ 0x00)
    (secret : Byte) : Function.Bijective (observed (d := m) poly x secret) :=
  Finite.injective_iff_bijective.1 fun _ _ same =>
    observedAndRest_injective (e := 0) h hx h0 secret (Prod.ext same (Subsingleton.elim _ _))

/-! ## Exactly one choice of coefficients -/

theorem exists_ofFn_eq {α : Type} {l : List α} (hl : l.length = m) : ∃ f : Fin m → α, List.ofFn f = l := by
  subst hl
  exact ⟨l.get, List.ofFn_get l⟩

/-- Settles O55, by `observed_bijective` for the lists as functions of their positions. -/
theorem fewerThanKSharesFitEverySecret : Obligations.FewerThanKSharesFitEverySecret := by
  intro poly h xs ys hn hx hlen secret
  obtain ⟨x, hxs⟩ := exists_ofFn_eq (l := xs) rfl
  obtain ⟨y, hys⟩ := exists_ofFn_eq hlen
  rw [← hxs] at hn hx
  have h0 : ∀ i, x i ≠ 0x00 := fun i hi => hx (hi ▸ List.mem_ofFn.2 ⟨i, rfl⟩)
  have bytes (c : Fin xs.length → Byte) : (xs.map fun a => horner poly a secret (List.ofFn c)) = ys ↔
      observed poly x secret c = y := by
    rw [← List.ofFn_inj, ofFn_observed, hxs, hys]
  obtain ⟨c, hc, unique⟩ := (observed_bijective h (List.nodup_ofFn.1 hn) h0 secret).existsUnique y
  refine ⟨List.ofFn c, ⟨List.length_ofFn, (bytes c).2 hc⟩, fun cs' hcs' hys' => ?_⟩
  obtain ⟨c', rfl⟩ := exists_ofFn_eq hcs'
  rw [unique c' ((bytes c').1 hys')]

/-! ## The law of the observed bytes -/

/-- Under a one-to-one correspondence with pairs, uniform elements have uniform first components. -/
theorem map_uniformOfFintype_fst {α β γ : Type} [Fintype α] [Fintype β] [Fintype γ] [Nonempty α] [Nonempty β]
    [Nonempty γ] {f : α → β × γ} (hf : Function.Bijective f) :
    (PMF.uniformOfFintype α).map (Prod.fst ∘ f) = PMF.uniformOfFintype β := by
  classical
  have card : (Fintype.card α : ENNReal) = Fintype.card β * Fintype.card γ := by
    rw [Fintype.card_of_bijective hf, Fintype.card_prod, Nat.cast_mul]
  have pos : (Fintype.card γ : ENNReal) ≠ 0 := Nat.cast_ne_zero.2 Fintype.card_ne_zero
  ext b
  calc (PMF.uniformOfFintype α).map (Prod.fst ∘ f) b
      = ∑ a, if b = (f a).1 then (Fintype.card α : ENNReal)⁻¹ else 0 := by
        simp only [PMF.map_apply, tsum_fintype, PMF.uniformOfFintype_apply, Function.comp_apply]
    _ = ∑ p : β × γ, if b = p.1 then (Fintype.card α : ENNReal)⁻¹ else 0 :=
        hf.sum_comp fun p => if b = p.1 then (Fintype.card α : ENNReal)⁻¹ else 0
    _ = Fintype.card γ * (Fintype.card α : ENNReal)⁻¹ := by
        simp [Fintype.sum_prod_type_right]
    _ = PMF.uniformOfFintype β b := by
        rw [PMF.uniformOfFintype_apply, card, ENNReal.mul_inv (by simp) (by simp), mul_left_comm,
          ENNReal.mul_inv_cancel pos (ENNReal.natCast_ne_top _), mul_one]

/-- The coefficients correspond one to one to pairs whose first component is the observed bytes. -/
theorem observedUniform (h : poly ∈ Config.admissiblePolys) {d : Nat} (hd : m ≤ d) (hx : Function.Injective x)
    (h0 : ∀ i, x i ≠ 0x00) (secret : Byte) : ObservedUniform poly d x secret := by
  obtain ⟨e, rfl⟩ := Nat.exists_eq_add_of_le hd
  exact map_uniformOfFintype_fst (observedAndRest_bijective h hx h0 secret)

/-- Bytes with one law for every secret byte are independent of it. -/
theorem ObservedIndependent.of_observedUniform {d : Nat} (h : ∀ secret, ObservedUniform poly d x secret)
    (prior : PMF Byte) : ObservedIndependent poly d x prior := by
  refine congrArg prior.bind (funext fun secret => ?_)
  rw [← h secret, PMF.map_comp]
  rfl

/-- Settles O57: the law by `observedUniform`, and it is the same for every secret byte. -/
theorem observedBytesAreUniformAndIndependent : Obligations.ObservedBytesAreUniformAndIndependent := by
  intro poly h k m x hm hx h0
  have uniform := observedUniform h (Nat.le_sub_one_of_lt hm) hx h0
  exact ⟨uniform, .of_observedUniform uniform⟩

end Sys2Proof.Machine
end

section
/-! PROOFS. The obligations about faults (spec/60_exceptions.md). -/

namespace Sys2Proof.Machine

variable {s u : State} {i : Instr} {r : Response} {e : ErrorName}

/-! ## The classes of faults -/

/-- `DomainError` is the one panic-class fault (R84, R85). -/
theorem faultClass_of_ne (h : e ≠ .domainError) : faultClass e = .error := by
  cases e with
  | domainError => exact absurd rfl h
  | invalidParameters | insufficientShares | duplicateIndex | malformedShares | illegalCommand | reservedIndex
  | halted => rfl

/-- What a fault of this class may do to the architectural state: an error nothing (R86), the panic-class fault sets
`RUN` alone (R87). -/
def FaultEffect (e : ErrorName) (s u : State) : Prop :=
  (faultClass e = .error → archState u = archState s) ∧
    (faultClass e = .panic → archState u = (.halted, s.coef, s.points))

theorem faultEffect_of_ne (h : e ≠ .domainError) (hu : archState u = archState s) : FaultEffect e s u :=
  ⟨fun _ => hu, fun hp => by simp [faultClass_of_ne h] at hp⟩

/-- A reaction that answers a fault is the fault's own: no command writes a buffer and then answers a fault. -/
theorem Reaction.faultEffect (h : Reaction i s (.err e) u) : FaultEffect e s u := by
  cases h with
  | error _ he => exact faultEffect_of_ne he rfl
  | panic => exact ⟨nofun, fun _ => rfl⟩

/-- Settles O45: `Halted` and `IllegalCommand` are answers alone, and a command's own faults are its `Reaction`. -/
theorem faultsChangeAtMostTheRunState : Obligations.FaultsChangeAtMostTheRunState := by
  intro w s t e h ht
  change FaultEffect e s t
  obtain ⟨-, rfl⟩ | ⟨-, -, rfl⟩ | ⟨hr, i, -, hi⟩ := execWord_cases h
  · obtain rfl : .halted = e := by simpa using ht
    exact faultEffect_of_ne nofun rfl
  · obtain rfl : .illegalCommand = e := by simpa using ht
    exact faultEffect_of_ne nofun rfl
  · obtain ⟨r, u, he, hu⟩ := exec_of_ready i hr
    obtain rfl : answer r u = t := by simpa [he] using hi
    obtain rfl : r = .err e := by simpa [hu.port_eq.2] using ht
    exact hu.faultEffect

/-! ## Which fault a command raises -/

/-- The fault a response reports, if any. -/
def responseFault : Response → Option ErrorName
  | .ok _ => none
  | .err e => some e

@[simp] theorem responseFault_ok (v : Byte) : responseFault (.ok v) = none := rfl
@[simp] theorem responseFault_err (e : ErrorName) : responseFault (.err e) = some e := rfl

theorem responseFault_eq_some_iff : responseFault r = some e ↔ r = .err e := by
  cases r <;> simp

theorem responseFault_eq_none_iff : responseFault r = none ↔ ∃ v, r = .ok v := by
  cases r <;> simp

@[simp] theorem responseFault_partialResponse_none : responseFault (partialResponse none) = some .domainError := rfl
@[simp] theorem responseFault_partialResponse_some (v : Byte) : responseFault (partialResponse (some v)) = none := rfl

/-- The three tests of R71 as the relation writes them. -/
theorem readyResponse_ipInterp (s : State) : readyResponse .ipInterp s.coef s.points =
    if s.plen < 2 then .err .insufficientShares
    else if ¬ s.px.Nodup then .err .duplicateIndex
    else if 0x00 ∈ s.px then .err .domainError
    else partialResponse (lagrange0 Config.poly (stagedPairs s)) := by
  simp only [← hasDuplicate_eq_true, ← hasZero_eq_true]
  rfl

/-- The response of a READY core reports the fault of the table of R89, read with the priorities of R90. -/
theorem responseFault_readyResponse (i : Instr) (s : State) :
    responseFault (readyResponse i s.coef s.points) = commandFault i s := by
  cases i with
  | gfAdd | gfMul | peClr | ipClr => rfl
  | gfInv a =>
    rw [readyResponse, commandFault]
    split_ifs with ha
    · rw [ha, gfInv_zero, responseFault_partialResponse_none]
    · rw [gfInv_of_ne_zero _ ha, responseFault_partialResponse_some]
  | gfDiv a b =>
    rw [readyResponse, commandFault]
    split_ifs with hb
    · rw [hb, gfDiv_zero, responseFault_partialResponse_none]
    · obtain ⟨q, hq⟩ := exists_gfDiv_eq_some Config.poly a hb
      rw [hq, responseFault_partialResponse_some]
  | pePush | ipPush => exact apply_ite responseFault _ _ _
  | peEval x =>
    rw [commandFault, State.clen]
    cases s.coef with
    | nil => rfl
    | cons c0 cs => exact apply_ite responseFault _ _ _
  | ipInterp =>
    rw [readyResponse_ipInterp, commandFault]
    split_ifs with few distinct zero
    · rfl
    · rfl
    · obtain ⟨v, hv⟩ := (exists_lagrange0_eq_some_iff Config.poly _).2 ((stagedPairs_map_fst s).symm ▸ distinct)
      rw [hv, responseFault_partialResponse_some]
    · rfl

/-- A READY core that answers a value stays READY. -/
theorem Reaction.ready_of_ok {v : Byte} (h : Reaction i s (.ok v) u) (hr : s.run = .ready) : u.run = .ready := by
  cases h with
  | value | clearedCoef | pushedCoef | clearedPoints | pushedPoint => exact hr

/-- Settles O46: the response is `readyResponse`, whose fault is the relation's, and only `DomainError` halts. -/
theorem commandsRaiseExactlyTheListedFaults : Obligations.CommandsRaiseExactlyTheListedFaults := by
  intro i s hr
  obtain ⟨r, u, he, hu⟩ := exec_of_ready i hr
  have responses := exec_responses hr he
  have ours : r = readyResponse i s.coef s.points := by simpa [hu.port_eq.2] using responses
  rw [← responseFault_readyResponse, ← ours]
  rw [← ours] at responses
  refine ⟨_, he, fun e hf => ?_, fun hf => ?_⟩
  · rw [responses, responseFault_eq_some_iff.1 hf]
  · obtain ⟨v, rfl⟩ := responseFault_eq_none_iff.1 hf
    exact ⟨hu.ready_of_ok hr, v, responses⟩

/-! ## The HALTED core, the idle core and the codes -/

/-- Settles O6: every command's own rule tests `RUN` first. -/
theorem haltedCoreExecutesNoCommand : Obligations.HaltedCoreExecutesNoCommand := fun i _ hr => exec_of_halted i hr

/-- Settles O3: no event is taken from the port. -/
theorem nothingHappensBetweenCommands : Obligations.NothingHappensBetweenCommands := by
  intro s hp
  rw [step, nextTransaction, takeEvent_nil hp]

/-- Settles O5: the transaction tests `RUN` before it decodes the word. -/
theorem haltedCoreAnswersHalted : Obligations.HaltedCoreAnswersHalted := ⟨rfl, fun _ w hr => execWord_of_halted w hr⟩

/-- No code lies above that of `Halted` (R84). -/
theorem respStat_le (r : Response) : (respStat r).toNat ≤ 8 := by
  cases r with
  | ok v => exact Nat.zero_le 8
  | err e => cases e <;> decide

/-- Settles O17: the codes by the definition, the bound by `respStat_le`. -/
theorem statCodes : Obligations.StatCodes := ⟨rfl, rfl, rfl, rfl, rfl, rfl, rfl, rfl, respStat_le⟩

end Sys2Proof.Machine
end

section
/-! PROOFS. Reset, runs as repeated steps, and runs from HALTED (spec/70_reset_and_hazards.md R98, R99, R103). -/

namespace Sys2Proof.Machine

variable {s t : State} {p : List HostEvent} {k k' l l' : Host.Outcome State Fault Refusal}

/-- Settles O2: the step takes the reset event, and its reaction is `resetCore`. -/
theorem resetEventLeavesReadyEmpty : Obligations.ResetEventLeavesReadyEmpty := fun _ _ hp => step_of_pending hp

/-! ## A run from HALTED -/

/-- The state with `n` answers `Halted` more. -/
def answerHalted (n : Nat) (s : State) : State :=
  { s with responses := s.responses ++ List.replicate n (.err .halted) }

/-- A HALTED core answers `Halted` to every word of a run and stays as it is (spec/60_exceptions.md R88). -/
theorem runWords_of_halted (ws : List CommandWord) (hr : s.run = .halted) :
    runWords ws s = .next (answerHalted ws.length s) := by
  induction ws generalizing s with
  | nil => simp [runWords, answerHalted]
  | cons w ws ih =>
    rw [runWords, execWord_of_halted w hr, andThen_next, ih (s := answer _ s) hr]
    simp [answerHalted, answer, List.replicate_succ]

/-- Settles O9, by `runWords_of_halted`. -/
theorem runFromHaltedOnlyAnswersHalted : Obligations.RunFromHaltedOnlyAnswersHalted := fun ws _ hr =>
  ⟨_, runWords_of_halted ws hr, hr, rfl, rfl⟩

/-! ## No command reads or writes the coming events -/

/-- The state with these events to come. -/
def withPending (p : List HostEvent) (s : State) : State := { s with pending := p }

@[simp] theorem withPending_coef : (withPending p s).coef = s.coef := rfl

theorem withPending_of_eq (h : s.pending = p) : withPending p s = s := by
  subst h
  rfl

/-- The outcome with these events to come in its next state. -/
def outcomeWithPending (p : List HostEvent) (o : Host.Outcome State Fault Refusal) : Host.Outcome State Fault Refusal :=
  andThen o fun t => .next (withPending p t)

theorem raise_withPending (e : ErrorName) : raise e (withPending p s) = outcomeWithPending p (raise e s) := by
  cases e <;> rfl

theorem respondPartial_withPending (v : Option Byte) :
    respondPartial v (withPending p s) = outcomeWithPending p (respondPartial v s) := by
  cases v with
  | none => exact raise_withPending .domainError
  | some v => rfl

/-- The READY test reads `RUN` alone, so the whole commutes where what it guards does. -/
theorem whenReady_withPending (hk : k' = outcomeWithPending p k) :
    whenReady k' (withPending p s) = outcomeWithPending p (whenReady k s) := by
  cases hr : s.run with
  | halted => rw [whenReady_of_halted hr, whenReady_of_halted (s := withPending p s) hr]; rfl
  | ready => rw [whenReady_of_ready hr, whenReady_of_ready (s := withPending p s) hr, hk]

theorem ite_withPending {c : Prop} [Decidable c] (hk : k' = outcomeWithPending p k) (hl : l' = outcomeWithPending p l) :
    (if c then k' else l') = outcomeWithPending p (if c then k else l) := by
  rw [hk, hl, apply_ite (outcomeWithPending p)]

/-- A command does the same whatever events are to come, and leaves them alone. -/
theorem exec_withPending (i : Instr) : exec i (withPending p s) = outcomeWithPending p (exec i s) := by
  cases i with
  | gfAdd | gfMul | peClr | ipClr => exact whenReady_withPending rfl
  | gfInv | gfDiv => exact whenReady_withPending (respondPartial_withPending _)
  | pePush | ipPush => exact whenReady_withPending (ite_withPending (raise_withPending _) rfl)
  | peEval x =>
    refine whenReady_withPending ?_
    rw [withPending_coef]
    cases s.coef with
    | nil => exact raise_withPending _
    | cons c0 cs => exact ite_withPending (raise_withPending _) rfl
  | ipInterp =>
    exact whenReady_withPending (ite_withPending (raise_withPending _) (ite_withPending (raise_withPending _)
      (ite_withPending (raise_withPending _) (respondPartial_withPending _))))

theorem execWord_withPending (w : CommandWord) :
    execWord w (withPending p s) = outcomeWithPending p (execWord w s) := by
  refine whenReady_withPending ?_
  cases decode w with
  | ok i => exact exec_withPending i
  | error e => exact raise_withPending .illegalCommand

/-! ## A run as steps -/

/-- The step on the first of the words to come is the transaction on it, which leaves the words after it to come. -/
theorem step_withPending_command {w : CommandWord} (h : execWord w s = .next t) :
    step (withPending (.command w :: p) s) = .next (withPending p t) := by
  rw [step_of_pending (s := withPending (.command w :: p) s) rfl]
  calc execWord w (withPending p s)
    _ = outcomeWithPending p (execWord w s) := execWord_withPending w
    _ = .next (withPending p t) := by rw [h]; rfl

/-- A run of the machine goes on from the next state of its first step. -/
theorem core_run_succ (h : step s = .next t) (n : Nat) : Host.Core.run core (n + 1) s = Host.Core.run core n t := by
  have first : core.step s = .next t := h
  simp only [Host.Core.run, first]

/-- Settles O8, by induction on the words: `step_withPending_command` is the step on the first of them. -/
theorem runIsSteppingThePendingWords : Obligations.RunIsSteppingThePendingWords := by
  intro ws s t hp h
  change Host.Core.run core ws.length (withPending (ws.map .command) s) = .next t
  induction ws generalizing s with
  | nil =>
    cases h
    exact congrArg Host.Outcome.next (withPending_of_eq hp)
  | cons w ws ih =>
    obtain ⟨u, hu, hrest⟩ := andThen_eq_next h
    obtain ⟨-, u', hu', -, hpend⟩ := execWord_total w s
    cases hu.symm.trans hu'
    exact (core_run_succ (step_withPending_command hu) ws.length).trans (ih u (hpend.trans hp) hrest)

end Sys2Proof.Machine
end
